-- ==== Sys2Proof/Word.lean ====
section
/-! DEFINITION. The word types of the virtual-esp32 core (spec/00_scope.md R8, R12, R13): 32-bit words for
registers, the pc and addresses, 8-bit bytes, and the 4-bit register slot of an instruction. -/

namespace Sys2Proof

/-- A register value, an address or a pc value: an unsigned 32-bit integer (R8 XLEN, PCLEN, ALEN; R13). -/
abbrev Word := BitVec 32

/-- A byte of memory, of a device or of `out`, and the 8-bit immediate field (R8). -/
abbrev Byte := BitVec 8

/-- A register slot of an instruction word, "always masked to 4 bits": 0 to 15 by its type (R83). -/
abbrev Reg := BitVec 4

end Sys2Proof
end

