-- ==== Sys2Proof/Syntax.lean ====
section
/-! DEFINITION. The instruction set: the closed set of eight operations (spec/00_scope.md R2,
spec/30_encoding.md R84, R87), one constructor for each row of spec/opcode_table.json. -/

namespace Sys2Proof

/-- A decoded instruction. The slots are named as 30_encoding.md R84 names them: `a` is slot A, `b` slot B,
`c` slot C and `imm8` the immediate byte. Only the fields an operation uses are kept, since the others
have no effect (R89). -/
inductive Instr where
  /-- LOAD rA, [rB + imm8] (R114). -/
  | load (a b : Reg) (imm8 : Byte)
  /-- STORE rA, [rB + imm8] (R115). -/
  | store (a b : Reg) (imm8 : Byte)
  /-- ADD rA, rB, rC (R116). -/
  | add (a b c : Reg)
  /-- SUB rA, rB, rC (R117). -/
  | sub (a b c : Reg)
  /-- MOV rA, rB (R118). -/
  | mov (a b : Reg)
  /-- JUMP rA (R120). -/
  | jump (a : Reg)
  /-- BRANCH_EQ rA, rB, imm8, the immediate counted in 2-byte units (R121). -/
  | branchEq (a b : Reg) (imm8 : Byte)
  /-- NOP (R122). -/
  | nop
  deriving DecidableEq, Repr

end Sys2Proof
end

