-- ==== Sys2Proof/Config.lean ====
section
/-! DEFINITION. The parameters of the block (spec/00_scope.md R9, R11): the memory map, the device population,
and the behaviours of the devices the spec leaves OPEN. A behaviour that is OPEN is a constant with no body
(`opaque`): nothing can be proved about what it answers, so a claim holds for every behaviour
(spec/93_implementation_defined.md I3, I4, I6 to I9; log entries 3, 4 and 6). -/

namespace Sys2Proof

/-- The address-map parameters (00_scope.md R9). RAM_SIZE is a count of bytes, up to 2^32. -/
structure MemoryMap where
  /-- RAM_BASE: the first RAM address, and the exclusive end of the device zone. -/
  ramBase : Word
  /-- RAM_SIZE: the number of RAM bytes. -/
  ramSize : Nat
  /-- DEVICE_BASE: the first address of the device zone. -/
  deviceBase : Word
  /-- LOAD_ADDR: where firmware is loaded, and the entry point. -/
  loadAddr : Word
  deriving DecidableEq, Repr

/-- The registers of a serial console device (60_exceptions.md R142). The spec gives the four registers and
their offsets and no bit field; each is kept as its 4-byte slot, the data register as "the last byte written"
(PRESUMED widths, safe: log entry 5). `queues` stands for whatever else the device buffers (10_state.md R32). -/
structure SerialRegs where
  data : Byte
  status : Word
  control : Word
  baudRate : Word
  queues : List Byte
  deriving DecidableEq, Repr, Inhabited

/-- The registers of a network-control device (60_exceptions.md R144), each as its 4-byte slot
(PRESUMED widths, safe: log entry 5), and whatever else it buffers (10_state.md R32). -/
structure NetworkRegs where
  control : Word
  status : Word
  data : Word
  address : Word
  response : Word
  queues : List Byte
  deriving DecidableEq, Repr, Inhabited

/-- What kind of device an entry of DEVICES is. `id` says which of the OPEN behaviours of its kind it has, so
two devices of one kind may behave differently (00_scope.md R11). -/
inductive DeviceKind where
  /-- The test fixture FIX, whose behaviour is given whole (92_eei_decisions.md D27). -/
  | fixture
  /-- A serial console (60_exceptions.md R142, R143). -/
  | serial (id : Nat)
  /-- A network-control device (60_exceptions.md R144). -/
  | network (id : Nat)
  /-- Any other device: all of its behaviour is a parameter (00_scope.md R11). -/
  | other (id : Nat)
  deriving DecidableEq, Repr

/-- An entry of DEVICES: a base address, a byte size and a behaviour (00_scope.md R11, 20_memory.md R63). -/
structure DeviceEntry where
  base : Word
  size : Nat
  kind : DeviceKind
  deriving DecidableEq, Repr

/-- A configuration: the memory map and DEVICES in the order of the add() calls (R9, R11, R31). -/
structure Configuration where
  map : MemoryMap
  devices : List DeviceEntry
  deriving DecidableEq, Repr

/-- The post-construction state of serial device `id`: OPEN (R142, decision D23; log entry 4). -/
opaque Config.serialInitial : Nat → SerialRegs

/-- A serial device's read8 at an offset: the byte and the registers afterwards; OPEN (decision D28). -/
opaque Config.serialRead8 : Nat → SerialRegs → Word → Byte × SerialRegs

/-- The registers after a write8 of a byte to offset 0x00, the data register itself apart: OPEN
(R145 lets a status flag change there; log entry 7). -/
opaque Config.serialAfterDataWrite : Nat → SerialRegs → Byte → SerialRegs

/-- SERIAL_SUBBYTE_WRITE: what write8 at offsets 0x01 to 0x03 does, and the bytes it emits, if any: OPEN
(R143, decision D28; log entry 6). -/
opaque Config.serialSubByteWrite : Nat → SerialRegs → Word → Byte → SerialRegs × List Byte

/-- The registers after a write8 at any offset from 0x04 on: OPEN (decision D23; log entry 6). -/
opaque Config.serialWrite8 : Nat → SerialRegs → Word → Byte → SerialRegs

/-- A serial device's update(): OPEN (20_memory.md R65). -/
opaque Config.serialUpdate : Nat → SerialRegs → SerialRegs

/-- The post-construction state of network device `id`: OPEN (R144, decision D23; log entry 4). -/
opaque Config.networkInitial : Nat → NetworkRegs

/-- A network device's read8: OPEN (R144). -/
opaque Config.networkRead8 : Nat → NetworkRegs → Word → Byte × NetworkRegs

/-- A network device's write8: OPEN (R144). -/
opaque Config.networkWrite8 : Nat → NetworkRegs → Word → Byte → NetworkRegs

/-- A network device's update(): OPEN (20_memory.md R65). -/
opaque Config.networkUpdate : Nat → NetworkRegs → NetworkRegs

/-- The post-construction state of any other device: OPEN (00_scope.md R11; log entry 4). -/
opaque Config.otherInitial : Nat → List Byte

/-- Any other device's read8: OPEN (00_scope.md R11, 20_memory.md R60). -/
opaque Config.otherRead8 : Nat → List Byte → Word → Byte × List Byte

/-- Any other device's write8: OPEN (00_scope.md R11, 20_memory.md R60). -/
opaque Config.otherWrite8 : Nat → List Byte → Word → Byte → List Byte

/-- Any other device's update(): OPEN (00_scope.md R11, 20_memory.md R65). -/
opaque Config.otherUpdate : Nat → List Byte → List Byte

/-- The configuration REF of 92_eei_decisions.md D26, the one concrete configuration of the spec: FIX and then
the serial console SER. DESIGN CHOICE, unsafe (log entry 1): `State.reset` is the machine constructed with it,
because the spec leaves the real values OPEN. -/
def Config.ref : Configuration :=
  { map := { ramBase := 0x00020000, ramSize := 0x00010000, deviceBase := 0x00010000, loadAddr := 0x00020000 }
    devices := [ { base := 0x00010000, size := 0x20, kind := .fixture },
                 { base := 0x00010100, size := 0x10, kind := .serial 0 } ] }

end Sys2Proof
end

