-- ==== Sys2Proof/WellFormed.lean ====
section
/-! DEFINITION. What is well formed. An `Instr` is well formed by its types: every slot is 4 bits and every
immediate 8 (spec/30_encoding.md R83, R85), so nothing is left to check there. What needs checks is what a
person writes: a line of assembly (R91) and a configuration (spec/20_memory.md R40, R63). -/

namespace Sys2Proof

/-- A line of the assembler syntax of 30_encoding.md R91, with the numbers as they are written. -/
inductive AsmLine where
  | load (a b : Nat) (imm : Int)
  | store (a b : Nat) (imm : Int)
  | add (a b c : Nat)
  | sub (a b c : Nat)
  | mov (a b : Nat)
  | jump (a : Nat)
  | branchEq (a b : Nat) (imm : Int)
  | nop
  /-- `.word 0xHHHHHHHH`: a data word. -/
  | word (w : Word)
  deriving DecidableEq, Repr

/-- `r0` to `r15` (R91). -/
def regNumberOk (r : Nat) : Bool := decide (r < 16)

/-- The offset of LOAD and STORE: 0 to 255 (R85, R91). -/
def offsetOk (imm : Int) : Bool := decide (0 ≤ imm) && decide (imm ≤ 255)

/-- The offset of BRANCH_EQ, in 2-byte units: -128 to 127 (R85, R91). -/
def branchOffsetOk (imm : Int) : Bool := decide (-128 ≤ imm) && decide (imm ≤ 127)

/-- A line the assembler accepts (R91). -/
def AsmLine.wf : AsmLine → Bool
  | .load a b imm => regNumberOk a && regNumberOk b && offsetOk imm
  | .store a b imm => regNumberOk a && regNumberOk b && offsetOk imm
  | .add a b c => regNumberOk a && regNumberOk b && regNumberOk c
  | .sub a b c => regNumberOk a && regNumberOk b && regNumberOk c
  | .mov a b => regNumberOk a && regNumberOk b
  | .jump a => regNumberOk a
  | .branchEq a b imm => regNumberOk a && regNumberOk b && branchOffsetOk imm
  | .nop => true
  | .word _ => true

/-- DEVICE_BASE ≤ RAM_BASE (20_memory.md R40). -/
def MemoryMap.zonesOrdered (m : MemoryMap) : Bool := decide (m.deviceBase.toNat ≤ m.ramBase.toNat)

/-- 1 ≤ RAM_SIZE (R40). -/
def MemoryMap.ramNonempty (m : MemoryMap) : Bool := decide (1 ≤ m.ramSize)

/-- RAM_BASE + RAM_SIZE ≤ 2^32, no wrap (R40). -/
def MemoryMap.ramNoWrap (m : MemoryMap) : Bool := decide (m.ramBase.toNat + m.ramSize ≤ 2 ^ 32)

/-- DEVICE_BASE, RAM_BASE and RAM_SIZE are each a multiple of 4 (R40). -/
def MemoryMap.aligned (m : MemoryMap) : Bool :=
  decide (m.deviceBase.toNat % 4 = 0) && decide (m.ramBase.toNat % 4 = 0) && decide (m.ramSize % 4 = 0)

/-- The constraints of 20_memory.md R40 on the memory map, each of them (decision D9). LOAD_ADDR is not constrained
(93_implementation_defined.md I11). -/
def MemoryMap.wf (m : MemoryMap) : Bool :=
  m.zonesOrdered && m.ramNonempty && m.ramNoWrap && m.aligned

/-- base + size ≤ 2^32 (20_memory.md R63, decision D21). -/
def rangeOk (base : Word) (size : Nat) : Bool := decide (base.toNat + size ≤ 2 ^ 32)

/-- The size the named devices' register maps need: at least 0x10 for a serial device and 0x14 for a network
device (60_exceptions.md R142, R144, decision D10). DEDUCED, safe (log entry 11): a smaller one is refused. -/
def DeviceKind.sizeOk : DeviceKind → Nat → Bool
  | .fixture, _ => true
  | .serial _, size => decide (0x10 ≤ size)
  | .network _, size => decide (0x14 ≤ size)
  | .other _, _ => true

/-- A device entry a configuration may hold. Ranges may overlap and may lie outside the device zone
(20_memory.md R42, R59). -/
def DeviceEntry.wf (e : DeviceEntry) : Bool := rangeOk e.base e.size && e.kind.sizeOk e.size

/-- A configuration the model accepts; any other is refused (20_memory.md R40, R63,
93_implementation_defined.md I10). -/
def Configuration.wf (c : Configuration) : Bool := c.map.wf && c.devices.all DeviceEntry.wf

end Sys2Proof
end

