-- ==== Sys2Proof/Decode.lean ====
section
/-! DEFINITION. Decoding and encoding (spec/30_encoding.md). Decoding is total: a word is an instruction or an
illegal one, rejected by name with its opcode. -/

namespace Sys2Proof

/-- Why bytes are no instruction. -/
inductive DecodeError where
  /-- The op field is 8 to 15 (R88). -/
  | unknownOpcode (op : BitVec 4)
  /-- Fewer than the four bytes of the fetch window (R79); a step always has four. -/
  | tooFewBytes
  deriving DecidableEq, Repr

/-- The fields of an instruction word, extracted at their fixed positions (R82). -/
structure Fields where
  op : BitVec 4
  a : Reg
  b : Reg
  c : Reg
  imm8 : Byte
  deriving DecidableEq, Repr

/-- R81, R82: op = w[3:0], A = w[7:4], B = w[11:8], C = w[15:12], imm8 = w[23:16]; w[31:24] is ignored. -/
def fieldsOf (w : Word) : Fields :=
  { op := w.extractLsb' 0 4, a := w.extractLsb' 4 4, b := w.extractLsb' 8 4,
    c := w.extractLsb' 12 4, imm8 := w.extractLsb' 16 8 }

/-- The opcode map of R87 (decision D1), and the illegal values of R88. -/
def decodeFields (f : Fields) : Except DecodeError Instr :=
  match f.op.toNat with
  | 0 => .ok (.load f.a f.b f.imm8)
  | 1 => .ok (.store f.a f.b f.imm8)
  | 2 => .ok (.add f.a f.b f.c)
  | 3 => .ok (.sub f.a f.b f.c)
  | 4 => .ok (.mov f.a f.b)
  | 5 => .ok (.jump f.a)
  | 6 => .ok (.branchEq f.a f.b f.imm8)
  | 7 => .ok .nop
  | _ => .error (.unknownOpcode f.op)

/-- Decode one fetched word (40_cycle.md R95, R97, R98). -/
def decodeWord (w : Word) : Except DecodeError Instr := decodeFields (fieldsOf w)

/-- The word at four bytes, the first of them the least significant (R79). -/
def wordOfBytes (b0 b1 b2 b3 : Byte) : Word := b3 ++ b2 ++ b1 ++ b0

/-- Decode the bytes of a fetch window, lowest address first; bytes after the fourth belong to no instruction
(R79, R80). -/
def decodeBytes : List Byte → Except DecodeError Instr
  | b0 :: b1 :: b2 :: b3 :: _ => decodeWord (wordOfBytes b0 b1 b2 b3)
  | _ => .error .tooFewBytes

/-- The opcode number of an operation (R87, decision D1). -/
def Instr.opcode : Instr → BitVec 4
  | .load _ _ _ => 0
  | .store _ _ _ => 1
  | .add _ _ _ => 2
  | .sub _ _ _ => 3
  | .mov _ _ => 4
  | .jump _ => 5
  | .branchEq _ _ _ => 6
  | .nop => 7

/-- The field values of an instruction, every ignored one zero (R84, R93). -/
def Instr.fields (i : Instr) : Fields :=
  match i with
  | .load a b imm8 => { op := i.opcode, a := a, b := b, c := 0, imm8 := imm8 }
  | .store a b imm8 => { op := i.opcode, a := a, b := b, c := 0, imm8 := imm8 }
  | .add a b c => { op := i.opcode, a := a, b := b, c := c, imm8 := 0 }
  | .sub a b c => { op := i.opcode, a := a, b := b, c := c, imm8 := 0 }
  | .mov a b => { op := i.opcode, a := a, b := b, c := 0, imm8 := 0 }
  | .jump a => { op := i.opcode, a := a, b := 0, c := 0, imm8 := 0 }
  | .branchEq a b imm8 => { op := i.opcode, a := a, b := b, c := 0, imm8 := imm8 }
  | .nop => { op := i.opcode, a := 0, b := 0, c := 0, imm8 := 0 }

/-- The formula of R93: op | (A << 4) | (B << 8) | (C << 12) | (imm8 << 16). -/
def packFields (f : Fields) : Word :=
  f.op.setWidth 32 ||| (f.a.setWidth 32 <<< 4) ||| (f.b.setWidth 32 <<< 8) |||
    (f.c.setWidth 32 <<< 12) ||| (f.imm8.setWidth 32 <<< 16)

/-- The word of an instruction, every ignored bit zero (R93). -/
def encode (i : Instr) : Word := packFields i.fields

/-- The four bytes of a word in memory order, little-endian (R79, R93). -/
def bytesOfWord (w : Word) : List Byte :=
  [w.extractLsb' 0 8, w.extractLsb' 8 8, w.extractLsb' 16 8, w.extractLsb' 24 8]

/-- The bytes of an instruction as the assembler emits them (R93). -/
def encodeBytes (i : Instr) : List Byte := bytesOfWord (encode i)

/-- The instruction a line of assembly stands for; a data word is none (R91). -/
def AsmLine.instr? : AsmLine → Option Instr
  | .load a b imm => some (.load (BitVec.ofNat 4 a) (BitVec.ofNat 4 b) (BitVec.ofInt 8 imm))
  | .store a b imm => some (.store (BitVec.ofNat 4 a) (BitVec.ofNat 4 b) (BitVec.ofInt 8 imm))
  | .add a b c => some (.add (BitVec.ofNat 4 a) (BitVec.ofNat 4 b) (BitVec.ofNat 4 c))
  | .sub a b c => some (.sub (BitVec.ofNat 4 a) (BitVec.ofNat 4 b) (BitVec.ofNat 4 c))
  | .mov a b => some (.mov (BitVec.ofNat 4 a) (BitVec.ofNat 4 b))
  | .jump a => some (.jump (BitVec.ofNat 4 a))
  | .branchEq a b imm => some (.branchEq (BitVec.ofNat 4 a) (BitVec.ofNat 4 b) (BitVec.ofInt 8 imm))
  | .nop => some .nop
  | .word _ => none

/-- The assembler's own sum for a line's word, on the numbers as written: R93's formula, with the immediate
taken modulo 256. -/
def asmSum (op a b c : Nat) (imm : Int) : Word :=
  BitVec.ofNat 32 (op + a * 16 + b * 256 + c * 4096 + (imm % 256).toNat * 65536)

/-- The word the assembler emits for a line (R93). -/
def AsmLine.emit : AsmLine → Word
  | .load a b imm => asmSum 0 a b 0 imm
  | .store a b imm => asmSum 1 a b 0 imm
  | .add a b c => asmSum 2 a b c 0
  | .sub a b c => asmSum 3 a b c 0
  | .mov a b => asmSum 4 a b 0 0
  | .jump a => asmSum 5 a 0 0 0
  | .branchEq a b imm => asmSum 6 a b 0 imm
  | .nop => asmSum 7 0 0 0 0
  | .word w => w

/-- The host's reader: an instruction whose bits are `w`, numbered as spec/opcode_table.json numbers them, laid
out as the hardware stores it and given to the decoder. -/
def decodeTableWord (nbits w : Nat) : Option Instr :=
  match decodeBytes (bytesOfWord (BitVec.ofNat 32 (w % 2 ^ nbits))) with
  | .ok i => some i
  | .error _ => none

end Sys2Proof
end

