-- ==== Sys2Proof/Machine/Bytes.lean ====
section
/-! DEFINITION. The access widths and the byte order (spec/00_scope.md R8, spec/20_memory.md R43): little-endian, fixed,
decided here once for RAM, devices and fetch. -/

namespace Sys2Proof.Machine

/-- The widths of an access: 8, 16 and 32 bits (R8). -/
inductive Width where
  | w8
  | w16
  | w32
  deriving DecidableEq, Repr

/-- The number n of bytes of an access, in {1, 2, 4} (00_scope.md R15). -/
def Width.bytes : Width → Nat
  | .w8 => 1
  | .w16 => 2
  | .w32 => 4

/-- Little-endian composition, zero-extended to a word: "byte 0 = least significant" (20_memory.md R43, R45). -/
def composeLE : List Byte → Word
  | [] => 0
  | b :: bs => b.setWidth 32 ||| (composeLE bs <<< 8)

/-- The low n bytes of a word, least significant first (R47). -/
def splitLE : Nat → Word → List Byte
  | 0, _ => []
  | n + 1, v => v.setWidth 8 :: splitLE n (v >>> 8)

end Sys2Proof.Machine
end

