-- ==== Sys2Proof/Machine/Devices.lean ====
section
/-! DEFINITION. The device capability contract (spec/20_memory.md R60 to R67) and the devices of the spec
(spec/60_exceptions.md R141 to R146, spec/92_eei_decisions.md D27). A device's state is plain data; its OPEN
behaviour is in Config, with no body. -/

namespace Sys2Proof.Machine

/-- devstate[k]: "device-specific" (10_state.md R32). The constructor says which device it is, and `id` which
OPEN behaviour it has. -/
inductive DeviceState where
  /-- FIX (D27): the bytes b[0..size-1] and the update count u. -/
  | fixture (bytes : List Byte) (updates : Nat)
  /-- A serial console (R142). -/
  | serial (id : Nat) (regs : SerialRegs)
  /-- A network-control device (R144). -/
  | network (id : Nat) (regs : NetworkRegs)
  /-- Any other device (00_scope.md R11); `store` holds all it keeps. -/
  | other (id : Nat) (store : List Byte)
  deriving DecidableEq, Repr

/-- An entry of the bus coordinator's list: where the device is and its state (10_state.md R31, R32, 20_memory.md R63). -/
structure Device where
  base : Word
  size : Nat
  state : DeviceState
  deriving DecidableEq, Repr

/-- The kind of a device. -/
def DeviceState.kind : DeviceState → DeviceKind
  | .fixture _ _ => .fixture
  | .serial id _ => .serial id
  | .network id _ => .network id
  | .other id _ => .other id

/-- The entry of DEVICES a device was constructed from: getBaseAddress(), getSize() and the kind (R63). -/
def Device.entry (d : Device) : DeviceEntry := { base := d.base, size := d.size, kind := d.state.kind }

/-- The post-construction state of a device of a kind and size (R32, R64; OPEN but for FIX: log entry 4). -/
def initialState (size : Nat) : DeviceKind → DeviceState
  | .fixture => .fixture (List.replicate size 0) 0
  | .serial id => .serial id (Config.serialInitial id)
  | .network id => .network id (Config.networkInitial id)
  | .other id => .other id (Config.otherInitial id)

/-- A device as constructed from an entry of DEVICES (70_reset_and_hazards.md R150 step 2). -/
def constructDevice (e : DeviceEntry) : Device :=
  { base := e.base, size := e.size, state := initialState e.size e.kind }

/-- isInRange(a): base ≤ a < base + size, the sum without wrap (R63). -/
def Device.isInRange (d : Device) (a : Word) : Bool :=
  decide (d.base.toNat ≤ a.toNat) && decide (a.toNat < d.base.toNat + d.size)

/-- The registers of a serial device, by name (R142). -/
inductive SerialRegister where
  | data
  | status
  | control
  | baudRate
  deriving DecidableEq, Repr

/-- The offset of a serial register (R142). -/
def SerialRegister.offset : SerialRegister → Word
  | .data => 0x00
  | .status => 0x04
  | .control => 0x08
  | .baudRate => 0x0C

/-- The registers of a network-control device, by name (R144). -/
inductive NetworkRegister where
  | control
  | status
  | data
  | address
  | response
  deriving DecidableEq, Repr

/-- The offset of a network register (R144). -/
def NetworkRegister.offset : NetworkRegister → Word
  | .control => 0x00
  | .status => 0x04
  | .data => 0x08
  | .address => 0x0C
  | .response => 0x10

/-- FIX's read8 (D27): b[o] where o < size, else 0; no side effect. -/
def fixtureRead8 (bytes : List Byte) (o : Word) : Byte := bytes.getD o.toNat 0

/-- FIX's write8 (D27): b[o] := v where o < size, else nothing. -/
def fixtureWrite8 (bytes : List Byte) (o : Word) (v : Byte) : List Byte := bytes.set o.toNat v

/-- A serial device's read8: OPEN, but the data register stays "the last byte written"
(R142; DEDUCED, unsafe: log entry 6). -/
def serialRead8 (id : Nat) (r : SerialRegs) (o : Word) : Byte × SerialRegs :=
  let answer := Config.serialRead8 id r o
  (answer.1, { answer.2 with data := r.data })

/-- A serial device's write8, with the bytes it emits (R143, decision D28). At offset 0x00 it stores the byte and
emits it; at 0x01 to 0x03 it is SERIAL_SUBBYTE_WRITE; elsewhere it is OPEN, emits nothing and leaves the data
register (DEDUCED, unsafe: log entry 6). -/
def serialWrite8 (id : Nat) (r : SerialRegs) (o : Word) (v : Byte) : SerialRegs × List Byte :=
  if o = SerialRegister.data.offset then ({ Config.serialAfterDataWrite id r v with data := v }, [v])
  else if o.toNat < 4 then Config.serialSubByteWrite id r o v
  else ({ Config.serialWrite8 id r o v with data := r.data }, [])

/-- A serial device's update(): OPEN, but the data register stays "the last byte written"
(R142; DEDUCED, unsafe: log entry 6). -/
def serialUpdate (id : Nat) (r : SerialRegs) : SerialRegs :=
  { Config.serialUpdate id r with data := r.data }

/-- read8 of a device's state: the byte, and the state afterwards (R60: a read may change it). -/
def DeviceState.read8 (st : DeviceState) (o : Word) : Byte × DeviceState :=
  match st with
  | .fixture bytes updates => (fixtureRead8 bytes o, .fixture bytes updates)
  | .serial id r => ((serialRead8 id r o).1, .serial id (serialRead8 id r o).2)
  | .network id r => ((Config.networkRead8 id r o).1, .network id (Config.networkRead8 id r o).2)
  | .other id store => ((Config.otherRead8 id store o).1, .other id (Config.otherRead8 id store o).2)

/-- write8 of a device's state: the state afterwards, and the bytes emitted to the standard output (R60, R143). Only
a serial device emits (10_state.md R34; DEDUCED, unsafe: log entry 6). -/
def DeviceState.write8 (st : DeviceState) (o : Word) (v : Byte) : DeviceState × List Byte :=
  match st with
  | .fixture bytes updates => (.fixture (fixtureWrite8 bytes o v) updates, [])
  | .serial id r => (.serial id (serialWrite8 id r o v).1, (serialWrite8 id r o v).2)
  | .network id r => (.network id (Config.networkWrite8 id r o v), [])
  | .other id store => (.other id (Config.otherWrite8 id store o v), [])

/-- update() of a device's state (R65). -/
def DeviceState.update : DeviceState → DeviceState
  | .fixture bytes updates => .fixture bytes (updates + 1)
  | .serial id r => .serial id (serialUpdate id r)
  | .network id r => .network id (Config.networkUpdate id r)
  | .other id store => .other id (Config.otherUpdate id store)

/-- read8(o) of a device (R60). -/
def Device.read8 (d : Device) (o : Word) : Byte × Device :=
  ((d.state.read8 o).1, { d with state := (d.state.read8 o).2 })

/-- write8(o, v) of a device (R60), with the bytes it emits. -/
def Device.write8 (d : Device) (o : Word) (v : Byte) : Device × List Byte :=
  ({ d with state := (d.state.write8 o v).1 }, (d.state.write8 o v).2)

/-- n byte reads at ascending offsets, the offset sums modulo 2^32 (R61, decision D16). -/
def Device.readSeq : Nat → Word → Device → List Byte × Device
  | 0, _, d => ([], d)
  | n + 1, o, d =>
    let first := d.read8 o
    let rest := Device.readSeq n (o + 1) first.2
    (first.1 :: rest.1, rest.2)

/-- Byte writes at ascending offsets, with the bytes they emit in that order (R62, decision D16). -/
def Device.writeSeq : List Byte → Word → Device → Device × List Byte
  | [], _, d => (d, [])
  | v :: vs, o, d =>
    let first := d.write8 o v
    let rest := Device.writeSeq vs (o + 1) first.1
    (rest.1, first.2 ++ rest.2)

/-- readN of a device: the little-endian composition of its byte reads, zero-extended (R61). -/
def Device.read (d : Device) (n : Width) (o : Word) : Word × Device :=
  (composeLE (Device.readSeq n.bytes o d).1, (Device.readSeq n.bytes o d).2)

/-- writeN of a device: the byte writes of the value, least significant first (R62). -/
def Device.write (d : Device) (n : Width) (o : Word) (v : Word) : Device × List Byte :=
  Device.writeSeq (splitLE n.bytes v) o d

/-- update() of a device (R65). -/
def Device.update (d : Device) : Device := { d with state := d.state.update }

/-- reset() of a device: its post-construction state (R64, 70_reset_and_hazards.md R151). -/
def Device.reset (d : Device) : Device := { d with state := initialState d.size d.state.kind }

/-- resolve(addr): the least index of a device whose range holds the address (R57). -/
def resolve : List Device → Word → Option Nat
  | [], _ => none
  | d :: ds, a => if d.isInRange a then some 0 else (resolve ds a).map (· + 1)

end Sys2Proof.Machine
end

