-- ==== Sys2Proof/Machine/Memory.lean ====
section
/-! DEFINITION. RAM as plain data (spec/10_state.md R29, spec/20_memory.md R41): a list of (address, byte) pairs, addresses strictly
rising, with no entry for a byte that holds 0x00, which is what an unlisted address reads as: RAM is "a
fixed-length byte store, zero-initialized at construction". Which addresses are RAM is the router's to say. -/

namespace Sys2Proof.Machine

/-- The RAM bytes that are not 0x00, by address. -/
abbrev Memory := List Host.Cell

/-- What a RAM byte holds that nothing has written: 0x00 (R29). -/
def Memory.unlisted : Byte := 0

/-- The byte at an address (R41). -/
def Memory.read : Memory → Nat → Byte
  | [], _ => Memory.unlisted
  | (k, u) :: m, a => if k = a then u else Memory.read m a

/-- `v` put in front of `m` at address `a`, or nothing where `v` is what an unlisted address reads as. -/
def Memory.cons (a : Nat) (v : Byte) (m : Memory) : Memory :=
  if v = Memory.unlisted then m else (a, v) :: m

/-- Write the byte at an address, keeping the canonical form. -/
def Memory.write : Memory → Nat → Byte → Memory
  | [], a, v => Memory.cons a v []
  | (k, u) :: m, a, v =>
    if a < k then Memory.cons a v ((k, u) :: m)
    else if a = k then Memory.cons a v m
    else (k, u) :: Memory.write m a v

/-- The n bytes from an address on, in ascending order. -/
def Memory.readBytes (m : Memory) : Nat → Nat → List Byte
  | _, 0 => []
  | a, n + 1 => m.read a :: Memory.readBytes m (a + 1) n

/-- Write a byte sequence from an address on, in ascending order. -/
def Memory.writeBytes : Memory → Nat → List Byte → Memory
  | m, _, [] => m
  | m, a, v :: vs => Memory.writeBytes (m.write a v) (a + 1) vs

/-- Every entry of `m` lies above address `a`. -/
def Memory.above (a : Nat) (m : Memory) : Bool := m.all fun c => decide (a < c.1)

/-- The canonical form: addresses strictly rising, and no entry that holds what an unlisted address reads as. -/
def Memory.wf : Memory → Bool
  | [] => true
  | (k, u) :: m => decide (u ≠ Memory.unlisted) && Memory.above k m && Memory.wf m

end Sys2Proof.Machine
end

