-- ==== Sys2Proof/Machine/State.lean ====
section
/-! DEFINITION. The state of the machine (spec/10_state.md), as plain data, and its value after reset. -/

namespace Sys2Proof.Machine

/-- The fault conditions, with the info the spec records of each (spec/60_exceptions.md R125, R126, R127,
R128, R129). A fault raised INSIDE a step is caught by the Run Loop and becomes the fault record of the next
state (40_cycle.md R103), so `step` never ends in one. As an OUTCOME a fault ends a host call. -/
inductive Fault where
  /-- An address or register index outside its valid domain. Raised by fetch, LOAD and STORE inside a step; by the
  host's router calls, readBytes, writeBytes, load and register accessor outside one. Safe: the spec names it. -/
  | outOfRange (info : Word)
  /-- A misaligned 16-bit or 32-bit access at a valid address. Raised by fetch, LOAD and STORE inside a step; by
  the host's router calls outside one. Safe: the spec names it. -/
  | alignment (info : Word)
  /-- A word whose op field is 8 to 15. Raised by dispatch, inside a step only. Safe: the spec names it. -/
  | unknownOpcode (info : Word)
  /-- A firmware blob of zero length. Raised by the host's load only (R129). Safe: the spec names it. -/
  | emptyInput
  deriving DecidableEq, Repr

/-- What the model refuses, because the spec says that a model does. -/
inductive Refusal where
  /-- An instruction with no meaning yet, raised by exec's arm; none is left. Safe. -/
  | notModelled (mnemonic : String)
  /-- Raised by the host's construction of a machine from a configuration that breaks a constraint: "refuses a
  configuration that breaks any of these constraints" (20_memory.md R40, R63, 93 I10). Safe. -/
  | badConfiguration
  /-- Raised by the host's load after run() has been called: "a model refuses it"
  (70_reset_and_hazards.md R153, 93 I12). Safe. -/
  | loadAfterRun
  /-- Raised by a host move on a device index that names no device: such an action "has no move in the model"
  (70_reset_and_hazards.md R157). Safe. -/
  | noSuchDevice
  deriving DecidableEq, Repr

/-- The kind of a fault: "an enumeration of these four names" (R125, decision D18). -/
inductive FaultKind where
  | outOfRange
  | alignment
  | unknownOpcode
  | emptyInput
  deriving DecidableEq, Repr

/-- The fault record a step writes (R130): the kind, the number of steps completed before, the address of the
faulting instruction, and the faulting address or op value. -/
structure FaultRecord where
  kind : FaultKind
  cycle : BitVec 64
  pc : Word
  info : Word
  deriving DecidableEq, Repr

/-- One of the router's device hooks: unregistered, or wired to the bus coordinator's operation of its width
(10_state.md R30, 20_memory.md R51; log entry 10). -/
inductive Hook where
  | unregistered
  | busCoordinator
  deriving DecidableEq, Repr

/-- The router's six hooks (10_state.md R30). -/
structure Hooks where
  read8 : Hook
  read16 : Hook
  read32 : Hook
  write8 : Hook
  write16 : Hook
  write32 : Hook
  deriving DecidableEq, Repr

/-- The composed system: all six wired to the bus coordinator (20_memory.md R51, decision D22). -/
def Hooks.composed : Hooks :=
  { read8 := .busCoordinator, read16 := .busCoordinator, read32 := .busCoordinator,
    write8 := .busCoordinator, write16 := .busCoordinator, write32 := .busCoordinator }

/-- Every piece of state the spec gives the machine (10_state.md). -/
structure State where
  /-- The general registers x[0] to x[15], none hard-wired (R18, R19). -/
  x : Vector Word 16
  /-- The program counter (R21). -/
  pc : Word
  /-- Whether step() executes an instruction (R26). -/
  running : Bool
  /-- The number of completed steps (R27). -/
  cycles : BitVec 64
  /-- The record of the first fault raised inside a step (R28). -/
  fault : Option FaultRecord
  /-- RAM (R29). -/
  ram : Memory
  /-- The router's hooks (R30). -/
  hooks : Hooks
  /-- The bus coordinator's ordered list of devices, each with its state (R31, R32). -/
  devices : List Device
  /-- The bytes emitted to the standard output stream, oldest first (R34). -/
  out : List Byte
  /-- RAM_BASE, RAM_SIZE, DEVICE_BASE and LOAD_ADDR, which nothing changes (00_scope.md R9; log entry 2). -/
  map : MemoryMap
  /-- The model's own: run() has been called (decision D30; log entry 9). -/
  runCalled : Bool
  deriving DecidableEq, Repr

/-- The state after construction and before load (10_state.md R36, 70_reset_and_hazards.md R150). -/
def constructed (c : Configuration) : State :=
  { x := Vector.replicate 16 0
    pc := c.map.loadAddr
    running := false
    cycles := 0
    fault := none
    ram := []
    hooks := Hooks.composed
    devices := c.devices.map constructDevice
    out := []
    map := c.map
    runCalled := false }

/-- The machine right after reset: "Reset is construction" (70_reset_and_hazards.md R150), with the configuration
REF (DESIGN CHOICE, unsafe: log entry 1). It is not running: a program comes to run by load and run()
(log entry 13). -/
def State.reset : State := constructed Config.ref

end Sys2Proof.Machine
end

