-- ==== Sys2Proof/Machine/Ops.lean ====
section
/-! DEFINITION. The named operations over registers, memory and the bus (spec/20_memory.md), and the fault path of a
step (spec/40_cycle.md R102 to R104, spec/60_exceptions.md R134). There is no return from a fault: "There is no trap return
and no handler" (R135). -/

namespace Sys2Proof.Machine

/-! ### Registers (10_state.md R14, R18 to R22) -/

/-- x[r] (R14). -/
def State.getReg (s : State) (r : Reg) : Word := s.x[r.toNat]'r.isLt

/-- x[r] <- v (R14): every register is written alike, x[0] among them (R19). -/
def State.setReg (s : State) (r : Reg) (v : Word) : State := { s with x := s.x.set r.toNat v r.isLt }

/-- pc <- t (R14): any value, unchecked (R23). -/
def State.setPc (s : State) (t : Word) : State := { s with pc := t }

/-- The trailing pc <- pc + 2 of every operation but JUMP, modulo 2^32 (R22, R100). -/
def State.advance (s : State) : State := s.setPc (s.pc + 2)

/-! ### The address map and the router's check (20_memory.md R38 to R44) -/

/-- RAM_END = RAM_BASE + RAM_SIZE − 1 (R38). -/
def ramEnd (m : MemoryMap) : Nat := m.ramBase.toNat + m.ramSize - 1

/-- isRAMAddress (R39). -/
def isRAMAddress (m : MemoryMap) (a : Word) : Bool :=
  decide (m.ramBase.toNat ≤ a.toNat) && decide (a.toNat ≤ ramEnd m)

/-- isPeripheralAddress (R39). -/
def isPeripheralAddress (m : MemoryMap) (a : Word) : Bool :=
  decide (m.deviceBase.toNat ≤ a.toNat) && decide (a.toNat < m.ramBase.toNat)

/-- isValidAddress (R39). -/
def isValidAddress (m : MemoryMap) (a : Word) : Bool := isRAMAddress m a || isPeripheralAddress m a

/-- The router's check, before any state is touched: OutOfRange first, then Alignment (R44, decision D7). -/
def checkAccess (m : MemoryMap) (n : Width) (a : Word) : Option Fault :=
  if !isValidAddress m a then some (.outOfRange a)
  else if a.toNat % n.bytes ≠ 0 then some (.alignment a)
  else none

/-! ### The bus coordinator (20_memory.md R56 to R58) -/

/-- BusRead(addr, n): the first device whose range holds the address, at offset addr − base; 0 where no device does
(R56, R57, R58). The state afterwards holds the device as the read left it (R60). -/
def busRead (n : Width) (a : Word) (s : State) : Word × State :=
  match resolve s.devices a with
  | none => (0, s)
  | some k =>
    match s.devices[k]? with
    | none => (0, s)
    | some d =>
      let answer := d.read n (a - d.base)
      (answer.1, { s with devices := s.devices.set k answer.2 })

/-- BusWrite(addr, n, v): the same device's writeN; nothing where no device resolves (R56, R58). What a serial device
emits is appended to `out` (10_state.md R34). -/
def busWrite (n : Width) (a : Word) (v : Word) (s : State) : State :=
  match resolve s.devices a with
  | none => s
  | some k =>
    match s.devices[k]? with
    | none => s
    | some d =>
      let answer := d.write n (a - d.base) v
      { s with devices := s.devices.set k answer.1, out := s.out ++ answer.2 }

/-! ### The router (20_memory.md R45 to R48) -/

/-- The read hook of a width (10_state.md R30). -/
def Hooks.readHook (h : Hooks) : Width → Hook
  | .w8 => h.read8
  | .w16 => h.read16
  | .w32 => h.read32

/-- The write hook of a width (10_state.md R30). -/
def Hooks.writeHook (h : Hooks) : Width → Hook
  | .w8 => h.write8
  | .w16 => h.write16
  | .w32 => h.write32

/-- The value of n RAM bytes from an address on (R45). -/
def ramRead (n : Width) (a : Word) (s : State) : Word := composeLE (s.ram.readBytes a.toNat n.bytes)

/-- The RAM after n bytes are stored from an address on (R47). -/
def ramWrite (n : Width) (a : Word) (v : Word) (s : State) : State :=
  { s with ram := s.ram.writeBytes a.toNat (splitLE n.bytes v) }

/-- A device-zone read: forwarded to the read hook of that width; 0 where it is unregistered (R46). -/
def hookRead (n : Width) (a : Word) (s : State) : Word × State :=
  match s.hooks.readHook n with
  | .busCoordinator => busRead n a s
  | .unregistered => (0, s)

/-- A device-zone write: forwarded to the write hook of that width; dropped where it is unregistered (R48). -/
def hookWrite (n : Width) (a : Word) (v : Word) (s : State) : State :=
  match s.hooks.writeHook n with
  | .busCoordinator => busWrite n a v s
  | .unregistered => s

/-- MemRead(addr, n) (R45). -/
def memRead (n : Width) (a : Word) (s : State) : Except Fault (Word × State) :=
  match checkAccess s.map n a with
  | some f => .error f
  | none => .ok (if isRAMAddress s.map a then (ramRead n a s, s) else hookRead n a s)

/-- MemWrite(addr, n, v) (R47). -/
def memWrite (n : Width) (a : Word) (v : Word) (s : State) : Except Fault State :=
  match checkAccess s.map n a with
  | some f => .error f
  | none => .ok (if isRAMAddress s.map a then ramWrite n a v s else hookWrite n a v s)

/-! ### Bulk operations (20_memory.md R53 to R55) -/

/-- Both ends of a bulk operation of `len` > 0 bytes are RAM addresses, the end computed without wrap
(R53, decision D15). -/
def bulkInRAM (m : MemoryMap) (a : Word) (len : Nat) : Bool :=
  let last := a.toNat + len - 1
  decide (last < 2 ^ 32) && isRAMAddress m a && isRAMAddress m (BitVec.ofNat 32 last)

/-- writeBytes(addr, data) (R53). -/
def writeBytes (a : Word) (data : List Byte) (s : State) : Except Fault State :=
  if data.isEmpty then .ok s
  else if bulkInRAM s.map a data.length then .ok { s with ram := s.ram.writeBytes a.toNat data }
  else .error (.outOfRange a)

/-- readBytes(addr, length) (R54). -/
def readBytes (a : Word) (length : Nat) (s : State) : Except Fault (List Byte) :=
  if length = 0 then .ok []
  else if bulkInRAM s.map a length then .ok (s.ram.readBytes a.toNat length)
  else .error (.outOfRange a)

/-! ### Faults inside a step (40_cycle.md R101 to R103, 60_exceptions.md R130, R134) -/

/-- The kind of a fault (R125). -/
def Fault.kind : Fault → FaultKind
  | .outOfRange _ => .outOfRange
  | .alignment _ => .alignment
  | .unknownOpcode _ => .unknownOpcode
  | .emptyInput => .emptyInput

/-- The info recorded of a fault (R126, R127, R128); a step never raises EmptyInput (R129). -/
def Fault.info : Fault → Word
  | .outOfRange a => a
  | .alignment a => a
  | .unknownOpcode op => op
  | .emptyInput => 0

/-- The record a step writes: `cycles` and pc as before the step (R102, R130). -/
def faultRecord (f : Fault) (s : State) : FaultRecord :=
  { kind := f.kind, cycle := s.cycles, pc := s.pc, info := f.info }

/-- Taking a fault: the record is written and running cleared, and nothing else changes (R103, R134). -/
def takeFault (f : Fault) (s : State) : State :=
  { s with fault := some (faultRecord f s), running := false }

/-- `raise Fault(kind, info)` inside a step: caught by the Run Loop, so a next state (00_scope.md R15,
40_cycle.md R102; log entry 8). -/
def raiseFault (f : Fault) (s : State) : Host.Outcome State Fault Refusal := .next (takeFault f s)

/-! ### The Run Loop's part of a step (40_cycle.md R102, R104) -/

/-- What a completed step adds: the cycle count, then update() on every device in list order (R104). -/
def completeStep (s : State) : State :=
  { s with cycles := s.cycles + 1, devices := s.devices.map Device.update }

/-- The end of a step after the operation: a state no longer running is one where the operation raised a fault, and
gets nothing more; any other is a completed step (R102, R103; log entry 8). -/
def endStep : Host.Outcome State Fault Refusal → Host.Outcome State Fault Refusal
  | .next t => .next (if t.running then completeStep t else t)
  | .fault r => .fault r
  | .refused r => .refused r

/-- Fetch: MemRead(pc, 4) (40_cycle.md R96). -/
def fetch (s : State) : Except Fault (Word × State) := memRead .w32 s.pc s

end Sys2Proof.Machine
end

