-- ==== Sys2Proof/Machine/Boot.lean ====
section
/-! DEFINITION. What the step and the host's first step after reset rest on: the fault a decode error raises, and a machine
with a word placed to be run. -/

namespace Sys2Proof.Machine

/-- The fault dispatch raises of a word that is no instruction: UnknownOpcode(op) (spec/40_cycle.md R98, spec/60_exceptions.md R128). A
fetched word always has four bytes, so the other error never reaches here. -/
def decodeFault : DecodeError → Fault
  | .unknownOpcode op => .unknownOpcode (op.setWidth 32)
  | .tooFewBytes => .unknownOpcode 0

/-- Whether a word at this address lies in RAM where a fetch reads it. -/
def fetchableInRAM (m : MemoryMap) (a : Word) : Bool := isRAMAddress m a && decide (a.toNat % 4 = 0)

/-- The state with `w` in the four bytes at the pc and with run() called: what a load of the word there and then run()
give (70_reset_and_hazards.md R154). Where the pc is no aligned RAM address, it is set to RAM_BASE, since no word could be
placed at it otherwise (log entry 13). -/
def placeWord (s : State) (w : Word) : State :=
  let p := if fetchableInRAM s.map s.pc then s.pc else s.map.ramBase
  { ramWrite .w32 p w s with pc := p, running := true, runCalled := true }

end Sys2Proof.Machine
end

