-- ==== Sys2Proof/Machine/Flags.lean ====
section
/-! DEFINITION. Flags: the block has none (spec/10_state.md R24: "no flags, condition codes or predicate registers"), so State has
no flag and no operation computes one. What stands here is what takes their place: the wrapping arithmetic that
drops carry and overflow, and the one condition, the comparison of BRANCH_EQ. -/

namespace Sys2Proof.Machine

/-- The sum modulo 2^32; a carry out of bit 31 is discarded (spec/42_arith.md R116, R119). -/
def wrappedSum (u v : Word) : Word := u + v

/-- The difference modulo 2^32; it "wraps on underflow" (R117, R119). -/
def wrappedDifference (u v : Word) : Word := u - v

/-- The condition of BRANCH_EQ: the two registers are equal in all 32 bits (43_control.md R121, R24). -/
def regsEqual (a b : Reg) (s : State) : Bool := s.getReg a == s.getReg b

end Sys2Proof.Machine
end

