-- ==== Sys2Proof/Machine/Arith.lean ====
section
/-! DEFINITION. ADD, SUB and MOV (spec/42_arith.md). -/

namespace Sys2Proof.Machine

/-- x[A] <- v, then pc <- pc + 2: the shape of the three operations (R116 to R118). -/
def writeResult (a : Reg) (v : Word) (s : State) : Host.Outcome State Fault Refusal :=
  .next (s.setReg a v).advance

/-- ADD (R116). -/
def execAdd (a b c : Reg) (s : State) : Host.Outcome State Fault Refusal :=
  writeResult a (wrappedSum (s.getReg b) (s.getReg c)) s

/-- SUB (R117). -/
def execSub (a b c : Reg) (s : State) : Host.Outcome State Fault Refusal :=
  writeResult a (wrappedDifference (s.getReg b) (s.getReg c)) s

/-- MOV (R118). -/
def execMov (a b : Reg) (s : State) : Host.Outcome State Fault Refusal :=
  writeResult a (s.getReg b) s

end Sys2Proof.Machine
end

