-- ==== Sys2Proof/Machine/Operands.lean ====
section
/-! DEFINITION. The operand forms (spec/30_encoding.md R84 to R86): a register, which `State.getReg` reads, base plus unsigned
displacement, and the signed branch offset. There is no other form (R86). -/

namespace Sys2Proof.Machine

/-- zext_32(imm8): the offset of LOAD and STORE, 0 to 255 (R85). -/
def zeroExtended (imm8 : Byte) : Word := imm8.setWidth 32

/-- sext_32(imm8): the two's-complement reading, −128 to 127 (00_scope.md R13, R85). -/
def signExtended (imm8 : Byte) : Word := imm8.signExtend 32

/-- EA = x[B] + zext_32(imm8), modulo 2^32 (41_load_store.md R113, decision D5). -/
def effectiveAddress (b : Reg) (imm8 : Byte) (s : State) : Word := s.getReg b + zeroExtended imm8

/-- The branch offset sext_32(imm8)·2, a count of 2-byte units in bytes (43_control.md R121). -/
def branchOffset (imm8 : Byte) : Word := signExtended imm8 * 2

end Sys2Proof.Machine
end

