-- ==== Sys2Proof/Machine/Control.lean ====
section
/-! DEFINITION. JUMP, BRANCH_EQ and NOP (spec/43_control.md). -/

namespace Sys2Proof.Machine

/-- JUMP (R120): pc <- x[A], unchecked, with no trailing advance. -/
def execJump (a : Reg) (s : State) : Host.Outcome State Fault Refusal := .next (s.setPc (s.getReg a))

/-- BRANCH_EQ (R121): the offset if the registers are equal, and then the trailing advance in either case. -/
def execBranchEq (a b : Reg) (imm8 : Byte) (s : State) : Host.Outcome State Fault Refusal :=
  if regsEqual a b s then .next (s.setPc (s.pc + branchOffset imm8)).advance else .next s.advance

/-- NOP (R122). -/
def execNop (s : State) : Host.Outcome State Fault Refusal := .next s.advance

end Sys2Proof.Machine
end

