-- ==== Sys2Proof/Machine/LoadStore.lean ====
section
/-! DEFINITION. LOAD and STORE (spec/41_load_store.md). -/

namespace Sys2Proof.Machine

/-- LOAD (R114): x[A] := MemRead(EA, 4), then pc + 2. A fault of the read leaves x[A] and pc. -/
def execLoad (a b : Reg) (imm8 : Byte) (s : State) : Host.Outcome State Fault Refusal :=
  match memRead .w32 (effectiveAddress b imm8 s) s with
  | .error f => raiseFault f s
  | .ok (v, t) => .next (t.setReg a v).advance

/-- STORE (R115): MemWrite(EA, 4, x[A]), then pc + 2. A fault of the write leaves everything. -/
def execStore (a b : Reg) (imm8 : Byte) (s : State) : Host.Outcome State Fault Refusal :=
  match memWrite .w32 (effectiveAddress b imm8 s) (s.getReg a) s with
  | .error f => raiseFault f s
  | .ok t => .next t.advance

end Sys2Proof.Machine
end

