-- ==== Sys2Proof/Machine/Dispatch.lean ====
section
/-! DEFINITION. Dispatch (spec/40_cycle.md R95, R98): each operation to its meaning. -/

namespace Sys2Proof.Machine

def exec (i : Instr) (s : State) : Host.Outcome State Fault Refusal :=
  match i with
  | .load a b imm8 => Sys2Proof.Machine.execLoad a b imm8 s
  | .store a b imm8 => Sys2Proof.Machine.execStore a b imm8 s
  | .add a b c => Sys2Proof.Machine.execAdd a b c s
  | .sub a b c => Sys2Proof.Machine.execSub a b c s
  | .mov a b => Sys2Proof.Machine.execMov a b s
  | .jump a => Sys2Proof.Machine.execJump a s
  | .branchEq a b imm8 => Sys2Proof.Machine.execBranchEq a b imm8 s
  | .nop => Sys2Proof.Machine.execNop s

end Sys2Proof.Machine
end

