-- ==== Sys2Proof/Machine/Step.lean ====
section
/-! DEFINITION. One step (spec/40_cycle.md R95, R102): fetch, decode, dispatch, execute, retire, and the Run Loop around
them. -/

namespace Sys2Proof.Machine

/-- step() (R102). While not running it changes nothing. Otherwise the word is fetched and decoded, the operation runs
in the state the fetch left, and a step that raised no fault is completed. -/
def step (s : State) : Host.Outcome State Fault Refusal :=
  if s.running then
    match fetch s with
    | .error f => raiseFault f s
    | .ok (w, t) =>
      match decodeWord w with
      | .error e => raiseFault (decodeFault e) t
      | .ok i => endStep (exec i t)
  else .next s

/-- A machine about to run the instruction whose bits are `w`: loaded with its four bytes where the next step fetches,
and with run() called (log entry 13). The pc is left alone wherever its word can lie in RAM. -/
def State.withFetchWord (s : State) (nbits w : Nat) : State := placeWord s (BitVec.ofNat 32 (w % 2 ^ nbits))

end Sys2Proof.Machine
end

