-- ==== Sys2Proof/Machine/HostPort.lean ====
section
/-! DEFINITION. The host's side of the machine (spec/70_reset_and_hazards.md R150 to R157, spec/40_cycle.md R105 to R107,
spec/60_exceptions.md R136, R148): construction, load, run and stop, the register accessor, direct router and bus access,
inspection. Every one happens between steps; a host action that is not here has no move (R157). -/

namespace Sys2Proof.Machine

/-- Constructing the machine (R150); a configuration that breaks a constraint is refused (20_memory.md R40, R63). -/
def construct (c : Configuration) : Host.Outcome State Fault Refusal :=
  if c.wf then .next (constructed c) else .refused .badConfiguration

/-- load(blob) (R153): EmptyInput of no bytes, else writeBytes at LOAD_ADDR. Either fault is fatal to the process, so it
ends in a fault. After run() has been called it is refused (decision D30). -/
def load (blob : List Byte) (s : State) : Host.Outcome State Fault Refusal :=
  if s.runCalled then .refused .loadAfterRun
  else if blob.isEmpty then .fault .emptyInput
  else
    match writeBytes s.map.loadAddr blob s with
    | .error f => .fault f
    | .ok t => .next t

/-- The start of run(): a faulted machine never restarts; any other is set running (40_cycle.md R105). -/
def startRun (s : State) : State :=
  if s.fault.isSome then s else { s with running := true, runCalled := true }

/-- stop(): not running, and nothing else changes (R106). -/
def stopRun (s : State) : State := { s with running := false }

/-- `while running: step()`, for at most `fuel` steps (R105; 70_reset_and_hazards.md R162: "A model runs under fuel"). -/
def runLoop : Nat → State → Host.Outcome State Fault Refusal
  | 0, s => .next s
  | fuel + 1, s =>
    if s.running then
      match step s with
      | .next t => runLoop fuel t
      | .fault r => .fault r
      | .refused r => .refused r
    else .next s

/-- run(), for at most `fuel` steps (R105). -/
def run (fuel : Nat) (s : State) : Host.Outcome State Fault Refusal :=
  if s.fault.isSome then .next s else runLoop fuel (startRun s)

/-- getRegister(i) (R156). -/
def getRegister (i : Word) (s : State) : Except Fault Word :=
  if h : i.toNat < 16 then .ok (s.x[i.toNat]'h) else .error (.outOfRange i)

/-- setRegister(i, v) (R156). -/
def setRegister (i : Word) (v : Word) (s : State) : Except Fault State :=
  if h : i.toNat < 16 then .ok { s with x := s.x.set i.toNat v h } else .error (.outOfRange i)

/-- Dev_k.reset() by the host: only that device's state changes (R151). -/
def resetDevice (k : Nat) (s : State) : State := { s with devices := s.devices.modify k Device.reset }

/-- What the host may do, always between steps (R157). -/
inductive HostMove where
  | load (blob : List Byte)
  /-- The start of the loop; each of the loop's steps is then a `step` move (log entry 14). -/
  | run
  | step
  | stop
  | getRegister (i : Word)
  | setRegister (i : Word) (v : Word)
  | routerRead (n : Width) (a : Word)
  | routerWrite (n : Width) (a : Word) (v : Word)
  | readBytes (a : Word) (length : Nat)
  | writeBytes (a : Word) (data : List Byte)
  | busRead (n : Width) (a : Word)
  | busWrite (n : Width) (a : Word) (v : Word)
  | registerDump
  | memoryDump (a : Word) (length : Nat)
  | deviceDump (k : Nat)
  | deviceReset (k : Nat)
  | readOut
  deriving DecidableEq, Repr

/-- What a host move answers; how a dump is printed is out of scope (00_scope.md R7, 60_exceptions.md R148). -/
inductive HostReply where
  | nothing
  | word (v : Word)
  | bytes (data : List Byte)
  | cycleCount (c : BitVec 64)
  | registers (x : Vector Word 16) (pc : Word)
  | device (st : DeviceState)
  deriving DecidableEq, Repr

/-- How a host move ends (60_exceptions.md R136). -/
inductive HostResult where
  /-- The state afterwards, and the answer. -/
  | done (s : State) (reply : HostReply)
  /-- A fault returned to the caller; the machine goes on with its state unchanged. -/
  | toCaller (f : Fault)
  /-- A fault "fatal to the process": no machine is left (93_implementation_defined.md I17). -/
  | fatal (f : Fault)
  /-- A move the model refuses. -/
  | refused (r : Refusal)
  deriving DecidableEq, Repr

/-- The result of a move that can end the process or be refused. -/
def outcomeResult : Host.Outcome State Fault Refusal → HostResult
  | .next t => .done t .nothing
  | .fault f => .fatal f
  | .refused r => .refused r

/-- The result of a move whose fault returns to the caller. -/
def callResult : Except Fault (HostReply × State) → HostResult
  | .ok (reply, t) => .done t reply
  | .error f => .toCaller f

/-- One host move (R157). -/
def hostMove (m : HostMove) (s : State) : HostResult :=
  match m with
  | .load blob => outcomeResult (load blob s)
  | .run => .done (startRun s) .nothing
  | .step => outcomeResult (step s)
  | .stop => .done (stopRun s) (.cycleCount s.cycles)
  | .getRegister i => callResult ((getRegister i s).map fun v => (.word v, s))
  | .setRegister i v => callResult ((setRegister i v s).map fun t => (.nothing, t))
  | .routerRead n a => callResult ((memRead n a s).map fun r => (.word r.1, r.2))
  | .routerWrite n a v => callResult ((memWrite n a v s).map fun t => (.nothing, t))
  | .readBytes a length => callResult ((readBytes a length s).map fun data => (.bytes data, s))
  | .writeBytes a data => callResult ((writeBytes a data s).map fun t => (.nothing, t))
  | .busRead n a => .done (busRead n a s).2 (.word (busRead n a s).1)
  | .busWrite n a v => .done (busWrite n a v s) .nothing
  | .registerDump => .done s (.registers s.x s.pc)
  | .memoryDump a length => callResult ((readBytes a length s).map fun data => (.bytes data, s))
  | .deviceDump k =>
    match s.devices[k]? with
    | some d => .done s (.device d.state)
    | none => .refused .noSuchDevice
  | .deviceReset k => if k < s.devices.length then .done (resetDevice k s) .nothing else .refused .noSuchDevice
  | .readOut => .done s (.bytes s.out)

end Sys2Proof.Machine
end

