-- ==== Sys2Proof/Safety.lean ====
section
/-! DEFINITION. What counts as a sound state, a launch state and the end of a run, in the terms the statements use. -/

namespace Sys2Proof.Machine

/-- A device whose entry is one a configuration may hold (spec/20_memory.md R63), and a fixture with exactly its size of
bytes (spec/92_eei_decisions.md D27). -/
def Device.wf (d : Device) : Bool :=
  d.entry.wf &&
    match d.state with
    | .fixture bytes _ => decide (bytes.length = d.size)
    | _ => true

/-- What holds in every state the machine can be in: the map meets 20_memory.md R40, RAM is in canonical form and lies in
the RAM zone (R29, R41), the devices are well formed, a running machine has no fault (40_cycle.md R108), and a machine
that runs or has faulted was started by run() (R105). -/
structure State.Inv (s : State) : Prop where
  mapWf : s.map.wf = true
  ramWf : Memory.wf s.ram = true
  ramInZone : ∀ c ∈ s.ram, s.map.ramBase.toNat ≤ c.1 ∧ c.1 ≤ ramEnd s.map
  devicesWf : ∀ d ∈ s.devices, d.wf = true
  runningNoFault : s.running = true → s.fault = none
  startedByRun : s.running = true ∨ s.fault ≠ none → s.runCalled = true

/-- The composed system: all six hooks wired to the bus coordinator (20_memory.md R51). -/
def State.Composed (s : State) : Prop := s.hooks = Hooks.composed

/-- A launch state: construction, then a successful load, then any host register writes (70_reset_and_hazards.md R155). -/
inductive Launch : State → Prop where
  | loaded (c : Configuration) (blob : List Byte) (s t : State) :
      construct c = .next s → load blob s = .next t → Launch t
  | preset (i v : Word) (s t : State) : Launch s → setRegister i v s = .ok t → Launch t

/-- A state the machine can be in: construction, then any host moves, steps among them (R157). -/
inductive Reachable : State → Prop where
  | constructed (c : Configuration) (s : State) : construct c = .next s → Reachable s
  | moved (m : HostMove) (reply : HostReply) (s t : State) : Reachable s → hostMove m s = .done t reply → Reachable t

/-- `n` steps from `s`, the machine running at the start of each, lead to `t`. -/
inductive StepsTo : Nat → State → State → Prop where
  | zero (s : State) : StepsTo 0 s s
  | succ (n : Nat) (s t u : State) : StepsTo n s t → t.running = true → step t = .next u → StepsTo (n + 1) s u

/-- The end of a run after `n` steps: "the first state reached after a step at which running = false" (40_cycle.md
R110), by a fault of the last step or by the host's stop() after it. -/
def RunEndsAt (n : Nat) (s t : State) : Prop :=
  0 < n ∧ t.running = false ∧ ∃ u, StepsTo n s u ∧ (t = u ∨ t = stopRun u)

end Sys2Proof.Machine
end

