-- ==== Sys2Proof/Certificates/Slice0/Obligations.lean ====
section
/-! DEFINITION. The statements for the provers. Each says in its docstring which rule of spec/ it formalises; where a clause
rests on a decision that the spec marks as its own, or on a choice of this model, the docstring names it. -/

open Sys2Proof Sys2Proof.Machine

/-! ### Encoding -/

/-- The words of spec/95_test_vectors.md section 2.1, written out there from the encoding, decode to the instructions they stand
for. The opcode numbers, slots and immediate position are the spec's decisions D1, D2 and D3. -/
def Obligations.DecodeReadsTheExampleWords : Prop :=
  decodeWord 0x00100210 = .ok (.load 1 2 0x10) ∧
  decodeWord 0x00040211 = .ok (.store 1 2 0x04) ∧
  decodeWord 0x00002132 = .ok (.add 3 1 2) ∧
  decodeWord 0x00002143 = .ok (.sub 4 1 2) ∧
  decodeWord 0x00000654 = .ok (.mov 5 6) ∧
  decodeWord 0x00000075 = .ok (.jump 7) ∧
  decodeWord 0x00030216 = .ok (.branchEq 1 2 0x03) ∧
  decodeWord 0x00FF0006 = .ok (.branchEq 0 0 0xFF) ∧
  decodeWord 0xFFFFFFF7 = .ok .nop ∧
  decodeWord 0xCD7F9A52 = .ok (.add 5 10 9) ∧
  decodeWord 0x00000000 = .ok (.load 0 0 0) ∧
  decodeWord 0x00000008 = .error (.unknownOpcode 8) ∧
  decodeWord 0xFFFFFFFF = .error (.unknownOpcode 15)

/-- No bit of an encoding is dropped: every instruction, with every operand at every value, is what its word and its
bytes decode to (30_encoding.md R82, R87, R93; decisions D1, D2, D3, D20). -/
def Obligations.DecodeOfEncodeIsTheInstruction : Prop :=
  ∀ i : Instr, decodeWord (encode i) = .ok i ∧ decodeBytes (encodeBytes i) = .ok i

/-- Each word has one meaning: the word of the instruction it decodes to is the word itself with the bits that the
operation ignores set to zero (30_encoding.md R89, R93; decisions D1, D2, D3, D20). -/
def Obligations.EncodeOfDecodeClearsTheIgnoredBits : Prop :=
  ∀ (w : Word) (i : Instr), decodeWord w = .ok i →
    encode i = w &&& (match i with
      | .load _ _ _ => 0x00FF0FFF
      | .store _ _ _ => 0x00FF0FFF
      | .add _ _ _ => 0x0000FFFF
      | .sub _ _ _ => 0x0000FFFF
      | .mov _ _ => 0x00000FFF
      | .jump _ => 0x000000FF
      | .branchEq _ _ _ => 0x00FF0FFF
      | .nop => 0x0000000F)

/-- The assembler's sum (R93) for every line it accepts (R91) is the word that decodes to the line's instruction, and
the word the encoder gives (decision D20). -/
def Obligations.AssembledLinesDecodeToTheirInstruction : Prop :=
  ∀ (l : AsmLine) (i : Instr), l.wf = true → l.instr? = some i → decodeWord l.emit = .ok i ∧ encode i = l.emit

/-- 30_encoding.md R88: a word whose low nibble is 8 to 15 raises UnknownOpcode with the nibble, whatever its other bits, and
halts the run loop with the cycle count unchanged. That the record holds the op value and the word's address is
60_exceptions.md R128, the record's form is R130 (decision D18), and that the fault is a next state is the model's reading of R103 (log
entry 8). -/
def Obligations.IllegalOpcodeStopsTheRun : Prop :=
  (∀ w : Word, 8 ≤ w.toNat % 16 → decodeWord w = .error (.unknownOpcode (w.extractLsb' 0 4))) ∧
  ∀ (s t : State) (w : Word), s.running = true → fetch s = .ok (w, t) → 8 ≤ w.toNat % 16 →
    step s = .next { t with fault := some ⟨.unknownOpcode, s.cycles, s.pc, w &&& 0xF⟩, running := false } ∧
      t.cycles = s.cycles

/-! ### Construction and reset -/

/-- The reset values of 10_state.md R36, for every configuration the model accepts. The values of the pc, running, cycles,
fault and out are the spec's decisions D11, D12, D14 and D18; a device's own reset value is OPEN (log entry 4), and the
statement says only that it is the one Dev.reset() restores. The second clause, that State.reset is the machine constructed
with the configuration REF, is the model's choice (log entry 1). -/
def Obligations.ConstructionSetsTheResetValues : Prop :=
  (∀ c : Configuration, c.wf = true →
    ∃ s, construct c = .next s ∧
      (∀ r : Reg, s.getReg r = 0) ∧ s.pc = c.map.loadAddr ∧ s.running = false ∧ s.cycles = 0 ∧ s.fault = none ∧
      (∀ a, s.ram.read a = 0) ∧ s.Composed ∧ s.devices.map Device.entry = c.devices ∧
      (∀ d ∈ s.devices, d.reset = d) ∧ s.out = [] ∧ s.map = c.map) ∧
  construct Config.ref = .next State.reset

/-- The machine after reset meets the invariant (the configuration REF is the model's choice: log entry 1). -/
def Obligations.ResetMeetsTheInvariant : Prop := State.reset.Inv

/-- 20_memory.md R40 and R63 (decisions D9, D21): construction refuses a configuration that breaks a constraint, and only such
a one. The size a named device needs is R142's and R144's "at least" (log entry 11). -/
def Obligations.OnlyBadConfigurationsAreRefused : Prop :=
  ∀ c : Configuration,
    construct c = .refused .badConfiguration ↔
      ¬ (c.map.deviceBase.toNat ≤ c.map.ramBase.toNat ∧ 1 ≤ c.map.ramSize ∧
        c.map.ramBase.toNat + c.map.ramSize ≤ 2 ^ 32 ∧ 4 ∣ c.map.deviceBase.toNat ∧ 4 ∣ c.map.ramBase.toNat ∧
        4 ∣ c.map.ramSize ∧
        ∀ e ∈ c.devices, e.base.toNat + e.size ≤ 2 ^ 32 ∧
          (∀ id, e.kind = .serial id → 0x10 ≤ e.size) ∧ (∀ id, e.kind = .network id → 0x14 ≤ e.size))

/-! ### The step and the Run Loop -/

/-- A step of a running machine whose fetched word decodes to an instruction is that instruction's meaning in the state the
fetch left, and then, where it raised no fault, the cycle count and one update of every device (40_cycle.md R95, R102; that
a fault is told by running being cleared is the model's reading, log entry 8). -/
def Obligations.StepRunsTheDecodedInstruction : Prop :=
  ∀ (s t : State) (w : Word) (i : Instr), s.running = true → fetch s = .ok (w, t) → decodeWord w = .ok i →
    step s = match exec i t with
      | .next u =>
        .next (if u.running then { u with cycles := u.cycles + 1, devices := u.devices.map Device.update } else u)
      | .fault r => .fault r
      | .refused r => .refused r

/-- 40_cycle.md R104: a completed step increments the cycle count by exactly 1 and then updates every device exactly once,
in list order, whether or not the step addressed it; by R103 a step of a running machine that is not completed does neither. That
completion is told by running still being set is the model's reading (log entry 8), and that the count wraps at 2^64 is its choice (log
entry 15). -/
def Obligations.CompletedStepCountsAndUpdatesEveryDevice : Prop :=
  ∀ s t : State, s.running = true → step s = .next t →
    (t.running = true → ∃ w u v i, fetch s = .ok (w, u) ∧ decodeWord w = .ok i ∧ exec i u = .next v ∧
      t.cycles = s.cycles + 1 ∧ t.devices = v.devices.map Device.update) ∧
    (t.running = false → t.cycles = s.cycles ∧
      (t.devices = s.devices ∨ ∃ w u, fetch s = .ok (w, u) ∧ t.devices = u.devices))

/-- A step that takes a fault leaves the state as the faulting instruction found it: the record holds a kind that a step
can raise, the count of completed steps and the instruction's address; running is cleared; no register, RAM byte, pc,
count or output changes; a device keeps what the fetch's read did to it (40_cycle.md R101, R103, 60_exceptions.md R130, R134; the
record's form is decision D18). -/
def Obligations.FaultingStepRecordsAndChangesNothingElse : Prop :=
  ∀ s t : State, s.running = true → step s = .next t → t.running = false →
    (∃ kind info, kind ≠ .emptyInput ∧ t.fault = some ⟨kind, s.cycles, s.pc, info⟩) ∧
    t.x = s.x ∧ t.pc = s.pc ∧ t.ram = s.ram ∧ t.cycles = s.cycles ∧ t.out = s.out ∧ t.hooks = s.hooks ∧ t.map = s.map ∧
    t.runCalled = s.runCalled ∧ (t.devices = s.devices ∨ ∃ w u, fetch s = .ok (w, u) ∧ t.devices = u.devices)

/-- Every step of every state answers a next state: no step ends in a fault of the model or in a refusal
(40_cycle.md R102, R109). -/
def Obligations.EveryStepAnswersANextState : Prop := ∀ s : State, ∃ t, step s = .next t

/-- 40_cycle.md R96: an invalid pc raises OutOfRange(pc), a valid one that is not a multiple of 4 raises Alignment(pc), and
otherwise the word is the router's 32-bit read there: of RAM, or of the bus coordinator, which is 0 where no device
resolves. The hooks are those of the composed system (R51). -/
def Obligations.FetchReadsThroughTheRouter : Prop :=
  ∀ s : State,
    (isValidAddress s.map s.pc = false → fetch s = .error (.outOfRange s.pc)) ∧
    (isValidAddress s.map s.pc = true → s.pc.toNat % 4 ≠ 0 → fetch s = .error (.alignment s.pc)) ∧
    (isRAMAddress s.map s.pc = true → s.pc.toNat % 4 = 0 →
      fetch s = .ok (s.ram.read (s.pc.toNat + 3) ++ s.ram.read (s.pc.toNat + 2) ++ s.ram.read (s.pc.toNat + 1) ++
        s.ram.read s.pc.toNat, s)) ∧
    (s.Composed → isRAMAddress s.map s.pc = false → isPeripheralAddress s.map s.pc = true → s.pc.toNat % 4 = 0 →
      fetch s = .ok (busRead .w32 s.pc s) ∧ (resolve s.devices s.pc = none → fetch s = .ok (0, s)))

/-- 60_exceptions.md R126 and R127 inside a step, as the record of the next state with the address as info: of a fetch fault,
and of the data fault of a fetched LOAD or STORE, which is recorded in the state the fetch left. (The record's form is
decision D18, the order of the two checks is decision D7, and that a fault is a next state is log entry 8.) -/
def Obligations.FetchFaultsBecomeTheRecord : Prop :=
  ∀ s : State, s.running = true →
    (isValidAddress s.map s.pc = false →
      step s = .next { s with fault := some ⟨.outOfRange, s.cycles, s.pc, s.pc⟩, running := false }) ∧
    (isValidAddress s.map s.pc = true → s.pc.toNat % 4 ≠ 0 →
      step s = .next { s with fault := some ⟨.alignment, s.cycles, s.pc, s.pc⟩, running := false }) ∧
    ∀ (w ea : Word) (t : State) (a b : Reg) (imm8 : Byte), fetch s = .ok (w, t) →
      (decodeWord w = .ok (.load a b imm8) ∨ decodeWord w = .ok (.store a b imm8)) → ea = effectiveAddress b imm8 s →
      (isValidAddress s.map ea = false →
        step s = .next { t with fault := some ⟨.outOfRange, s.cycles, s.pc, ea⟩, running := false }) ∧
      (isValidAddress s.map ea = true → ea.toNat % 4 ≠ 0 →
        step s = .next { t with fault := some ⟨.alignment, s.cycles, s.pc, ea⟩, running := false })

/-- A machine that is not running, and so a faulted machine, is left as it is by step(), and run() returns at once on a
faulted one (40_cycle.md R102, R105, R108; that a faulted machine is final is decision D13). -/
def Obligations.StoppedAndFaultedMachinesStay : Prop :=
  (∀ s : State, s.running = false → step s = .next s) ∧
  ∀ s : State, s.Inv → s.fault ≠ none → step s = .next s ∧ startRun s = s ∧ ∀ fuel, run fuel s = .next s

/-- 40_cycle.md R106: stop() is idempotent, sets not-running and nothing else, and reports the final cycle count. -/
def Obligations.StopIsIdempotentAndReportsTheCount : Prop :=
  ∀ s : State,
    hostMove .stop s = .done { s with running := false } (.cycleCount s.cycles) ∧
    stopRun (stopRun s) = stopRun s ∧ (s.running = false → stopRun s = s)

/-- run() after a stop continues from the current state, and starts a machine that has no fault (40_cycle.md R105; decision
D12). -/
def Obligations.RunStartsAMachineWithoutFault : Prop :=
  ∀ s : State, s.fault = none →
    startRun s = { s with running := true, runCalled := true } ∧
    ∀ fuel t, step { s with running := true, runCalled := true } = .next t →
      run (fuel + 1) s = runLoop fuel t

/-- The count of a run: after n steps that all completed it has grown by n, modulo 2^64; a fault in the last of them leaves
it one less (40_cycle.md R103, R104, 60_exceptions.md R139; the wrap at 2^64 is the model's, log entry 15). -/
def Obligations.CyclesCountTheCompletedSteps : Prop :=
  ∀ (n : Nat) (s t : State), StepsTo n s t →
    (t.running = true → t.cycles = s.cycles + BitVec.ofNat 64 n) ∧
    (t.running = false → 0 < n → t.cycles = s.cycles + BitVec.ofNat 64 (n - 1))

/-- The end of a run (40_cycle.md R110, decision D25) comes about in two ways only: a fault of its last step, whose record holds
that step's cycle count and pc, which the fault left as they were; or a stop() after a step that completed. The machine
then stays as it is. (The record's form is decision D18.) -/
def Obligations.RunsEndOnlyByFaultOrStop : Prop :=
  ∀ (n : Nat) (s t : State), RunEndsAt n s t →
    step t = .next t ∧
      ((StepsTo n s t ∧ ∃ kind info, t.fault = some ⟨kind, t.cycles, t.pc, info⟩) ∨
        ∃ u, StepsTo n s u ∧ u.running = true ∧ t = stopRun u)

/-- The address map, the hooks, and each device's base, size and kind are never changed by a step, and no step takes back a
byte of the output (10_state.md R30, R31, R34, 20_memory.md R51). -/
def Obligations.StepKeepsConfigurationAndOutput : Prop :=
  ∀ s t : State, step s = .next t →
    t.map = s.map ∧ t.hooks = s.hooks ∧ t.devices.map Device.entry = s.devices.map Device.entry ∧
      ∃ emitted, t.out = s.out ++ emitted

/-! ### Invariants and the hazard -/

/-- Every step keeps the invariant: RAM canonical and inside its zone, devices well formed, a running machine without a
fault, and started by run(). -/
def Obligations.StepKeepsTheInvariant : Prop :=
  ∀ s t : State, s.Inv → step s = .next t → t.Inv

/-- Every host move keeps the invariant too (70_reset_and_hazards.md R157). -/
def Obligations.HostMovesKeepTheInvariant : Prop :=
  ∀ (m : HostMove) (reply : HostReply) (s t : State), s.Inv → hostMove m s = .done t reply → t.Inv

/-- So every state the machine can be in meets it, whatever the configuration and the host's moves; and its configuration
is one the model accepts, with all six hooks wired. -/
def Obligations.ReachableStatesMeetTheInvariant : Prop :=
  ∀ s : State, Reachable s → s.Inv ∧ s.Composed

/-- The fetch-alignment hazard (70_reset_and_hazards.md R158, which the spec derives from R96 and R100): a LOAD, STORE, ADD, SUB, MOV
or NOP that completes is the last instruction of its run, since the next fetch is at pc + 2 and raises Alignment there. -/
def Obligations.SequentialInstructionIsTheLastOfItsRun : Prop :=
  ∀ (s t u : State) (w : Word) (i : Instr), s.Inv → s.running = true → fetch s = .ok (w, u) → decodeWord w = .ok i →
    (match i with
      | .jump _ => False
      | .branchEq _ _ _ => False
      | _ => True) →
    step s = .next t → t.running = true →
    t.pc = s.pc + 2 ∧
    step t = .next { t with fault := some ⟨.alignment, t.cycles, s.pc + 2, s.pc + 2⟩, running := false }

/-- The other half of R158: where two steps in a row complete, the first was a JUMP to a multiple of 4 or a taken BRANCH_EQ
with an odd immediate. -/
def Obligations.RunsGoOnOnlyThroughJumpsAndOddBranches : Prop :=
  ∀ s t u : State, s.Inv → s.running = true → step s = .next t → t.running = true → step t = .next u →
    u.running = true →
    ∃ w v, fetch s = .ok (w, v) ∧
      ((∃ a, decodeWord w = .ok (.jump a) ∧ (s.getReg a).toNat % 4 = 0) ∨
        ∃ a b imm8, decodeWord w = .ok (.branchEq a b imm8) ∧ s.getReg a = s.getReg b ∧ imm8.toNat % 2 = 1)

/-! ### The router, the bus and the devices -/

/-- 20_memory.md R39: the two zones, by unsigned comparison; they never overlap (R40). -/
def Obligations.ZonesAreClassifiedByRange : Prop :=
  ∀ (m : MemoryMap) (a : Word),
    (isRAMAddress m a = true ↔ m.ramBase.toNat ≤ a.toNat ∧ a.toNat ≤ m.ramBase.toNat + m.ramSize - 1) ∧
    (isPeripheralAddress m a = true ↔ m.deviceBase.toNat ≤ a.toNat ∧ a.toNat < m.ramBase.toNat) ∧
    (isValidAddress m a = true ↔ isRAMAddress m a = true ∨ isPeripheralAddress m a = true) ∧
    ¬ (isRAMAddress m a = true ∧ isPeripheralAddress m a = true)

/-- 20_memory.md R45 and R46: a router read checks first; a RAM read composes its bytes little-endian, zero-extended, and
changes nothing; a device-zone read is forwarded to the hook of its width, or is 0 where none is registered. -/
def Obligations.RouterReadFollowsItsRule : Prop :=
  ∀ (n : Width) (a : Word) (s : State),
    (∀ f, checkAccess s.map n a = some f → memRead n a s = .error f) ∧
    (checkAccess s.map n a = none → isRAMAddress s.map a = true →
      memRead n a s = .ok ((match n with
        | .w8 => (s.ram.read a.toNat).setWidth 32
        | .w16 => (s.ram.read (a.toNat + 1) ++ s.ram.read a.toNat).setWidth 32
        | .w32 => s.ram.read (a.toNat + 3) ++ s.ram.read (a.toNat + 2) ++ s.ram.read (a.toNat + 1) ++
            s.ram.read a.toNat), s)) ∧
    (checkAccess s.map n a = none → isRAMAddress s.map a = false →
      (s.hooks.readHook n = .busCoordinator → memRead n a s = .ok (busRead n a s)) ∧
      (s.hooks.readHook n = .unregistered → memRead n a s = .ok (0, s)))

/-- 20_memory.md R47 and R48: a router write checks first and writes nothing if a check fails; a RAM write changes exactly its
n bytes, to the bytes of the value, least significant first; a device-zone write is forwarded to the hook of its width, or
dropped where none is registered. -/
def Obligations.RouterWriteFollowsItsRule : Prop :=
  ∀ (n : Width) (a v : Word) (s : State), Memory.wf s.ram = true →
    (∀ f, checkAccess s.map n a = some f → memWrite n a v s = .error f) ∧
    (checkAccess s.map n a = none → isRAMAddress s.map a = true →
      ∃ ram, memWrite n a v s = .ok { s with ram := ram } ∧
        (∀ j, j < n.bytes → ram.read (a.toNat + j) = v.extractLsb' (8 * j) 8) ∧
        (∀ k, k < a.toNat ∨ a.toNat + n.bytes ≤ k → ram.read k = s.ram.read k)) ∧
    (checkAccess s.map n a = none → isRAMAddress s.map a = false →
      (s.hooks.writeHook n = .busCoordinator → memWrite n a v s = .ok (busWrite n a v s)) ∧
      (s.hooks.writeHook n = .unregistered → memWrite n a v s = .ok s))

/-- The router's check (20_memory.md R44): OutOfRange first and then Alignment, by the access's width; the order is decision D7.
A byte access is never misaligned. -/
def Obligations.RangeIsCheckedBeforeAlignment : Prop :=
  ∀ (m : MemoryMap) (a : Word),
    (∀ n, isValidAddress m a = false → checkAccess m n a = some (.outOfRange a)) ∧
    (isValidAddress m a = true →
      checkAccess m .w8 a = none ∧
      checkAccess m .w16 a = (if a.toNat % 2 = 0 then none else some (.alignment a)) ∧
      checkAccess m .w32 a = (if a.toNat % 4 = 0 then none else some (.alignment a)))

/-- 20_memory.md R49, which the spec derives from R40 and R44: the bytes of an access the check lets through lie in one zone, and
in the address space. -/
def Obligations.AlignedAccessStaysInOneZone : Prop :=
  ∀ (m : MemoryMap) (n : Width) (a : Word), m.wf = true → checkAccess m n a = none →
    a.toNat + n.bytes ≤ 2 ^ 32 ∧
    ∀ j, j < n.bytes →
      isRAMAddress m (a + BitVec.ofNat 32 j) = isRAMAddress m a ∧
      isPeripheralAddress m (a + BitVec.ofNat 32 j) = isPeripheralAddress m a

/-- 20_memory.md R50: the mixed-width views of a word stored in RAM, and the round trip of a byte. -/
def Obligations.StoredWordReadsBackAtEveryWidth : Prop :=
  ∀ (a v : Word) (s : State), s.Inv → isRAMAddress s.map a = true →
    (a.toNat % 4 = 0 →
      ∃ t, memWrite .w32 a v s = .ok t ∧
        (∀ j, j < 4 →
          memRead .w8 (a + BitVec.ofNat 32 j) t = .ok ((v.extractLsb' (8 * j) 8).setWidth 32, t)) ∧
        memRead .w16 a t = .ok ((v.extractLsb' 0 16).setWidth 32, t) ∧
        memRead .w16 (a + 2) t = .ok ((v.extractLsb' 16 16).setWidth 32, t)) ∧
    ∃ t, memWrite .w8 a v s = .ok t ∧ memRead .w8 a t = .ok ((v.extractLsb' 0 8).setWidth 32, t)

/-- 20_memory.md R57: resolve answers the least index of a device whose range holds the address, or none if no device's does. The
range is R63's (decision D21): base ≤ a < base + size, the sum without wrap, so that a device of size 0 claims no address. -/
def Obligations.ResolveIsTheFirstMatch : Prop :=
  (∀ (d : Device) (a : Word),
    (d.isInRange a = true ↔ d.base.toNat ≤ a.toNat ∧ a.toNat < d.base.toNat + d.size) ∧
      (d.size = 0 → d.isInRange a = false)) ∧
  ∀ (ds : List Device) (a : Word),
    (∀ k, resolve ds a = some k ↔
      (∃ d, ds[k]? = some d ∧ d.isInRange a = true) ∧
        ∀ j d, j < k → ds[j]? = some d → d.isInRange a = false) ∧
    (resolve ds a = none ↔ ∀ d ∈ ds, d.isInRange a = false)

/-- 20_memory.md R56 and R58: the bus reads and writes the device that resolves, at the device-relative offset, with no check of its
own; where none resolves, reads return 0 and writes are no-ops. What a device emits goes to `out`. -/
def Obligations.BusDispatchesAtTheOffset : Prop :=
  ∀ (n : Width) (a v : Word) (s : State),
    (resolve s.devices a = none → busRead n a s = (0, s) ∧ busWrite n a v s = s) ∧
    ∀ k d, resolve s.devices a = some k → s.devices[k]? = some d →
      busRead n a s = ((d.read n (a - d.base)).1, { s with devices := s.devices.set k (d.read n (a - d.base)).2 }) ∧
      busWrite n a v s = { s with
        devices := s.devices.set k (d.write n (a - d.base) v).1
        out := s.out ++ (d.write n (a - d.base) v).2 }

/-- An unmapped device-zone access is "defined, not exceptional" (20_memory.md R58), for LOAD and STORE of the composed
system: LOAD gives 0, STORE does nothing, and both complete. -/
def Obligations.UnmappedDeviceAccessCompletes : Prop :=
  ∀ (ra rb : Reg) (imm8 : Byte) (s : State), s.Composed →
    isRAMAddress s.map (effectiveAddress rb imm8 s) = false →
    isPeripheralAddress s.map (effectiveAddress rb imm8 s) = true →
    (effectiveAddress rb imm8 s).toNat % 4 = 0 → resolve s.devices (effectiveAddress rb imm8 s) = none →
    exec (.load ra rb imm8) s = .next { s with x := s.x.set ra.toNat 0 ra.isLt, pc := s.pc + 2 } ∧
    exec (.store ra rb imm8) s = .next { s with pc := s.pc + 2 }

/-- The width-composition law (20_memory.md R61, R62): a 16-bit or 32-bit access of a device is two or four byte operations,
composed little-endian. That they happen in ascending offset order is decision D16. -/
def Obligations.DeviceAccessesComposeByteOperations : Prop :=
  ∀ (d : Device) (o v : Word),
    (let r0 := d.read8 o
     let r1 := r0.2.read8 (o + 1)
     d.read .w16 o = (r0.1.setWidth 32 ||| (r1.1.setWidth 32 <<< 8), r1.2)) ∧
    (let r0 := d.read8 o
     let r1 := r0.2.read8 (o + 1)
     let r2 := r1.2.read8 (o + 2)
     let r3 := r2.2.read8 (o + 3)
     d.read .w32 o = (r0.1.setWidth 32 ||| (r1.1.setWidth 32 <<< 8) ||| (r2.1.setWidth 32 <<< 16) |||
       (r3.1.setWidth 32 <<< 24), r3.2)) ∧
    (let w0 := d.write8 o (v.extractLsb' 0 8)
     let w1 := w0.1.write8 (o + 1) (v.extractLsb' 8 8)
     d.write .w16 o v = (w1.1, w0.2 ++ w1.2)) ∧
    (let w0 := d.write8 o (v.extractLsb' 0 8)
     let w1 := w0.1.write8 (o + 1) (v.extractLsb' 8 8)
     let w2 := w1.1.write8 (o + 2) (v.extractLsb' 16 8)
     let w3 := w2.1.write8 (o + 3) (v.extractLsb' 24 8)
     d.write .w32 o v = (w3.1, w0.2 ++ w1.2 ++ w2.2 ++ w3.2))

/-- 20_memory.md R64: reset() restores a device's post-construction state, whatever accesses and updates have done to it; they
never change which device it is. -/
def Obligations.DeviceResetRestoresConstruction : Prop :=
  ∀ (d : Device) (n : Width) (o v : Word),
    d.reset = constructDevice d.entry ∧ (d.read n o).2.reset = d.reset ∧ (d.write n o v).1.reset = d.reset ∧
      d.update.reset = d.reset

/-- A STORE to the base of a serial device emits the low byte of the register first, and after the first of its byte writes
that byte is the data register's (60_exceptions.md R143, decision D28); what the other three byte writes do is OPEN
(SERIAL_SUBBYTE_WRITE, log entry 6). -/
def Obligations.SerialDataWriteEmitsTheLowByteFirst : Prop :=
  (∀ (base : Word) (size id : Nat) (regs : SerialRegs) (v : Byte),
    let d : Device := { base := base, size := size, state := .serial id regs }
    ∃ regs' : SerialRegs, regs'.data = v ∧ d.write8 0 v = ({ d with state := .serial id regs' }, [v])) ∧
  ∀ (ra rb : Reg) (imm8 : Byte) (s : State) (k id : Nat) (d : Device) (regs : SerialRegs), s.Composed →
    isRAMAddress s.map d.base = false → isPeripheralAddress s.map d.base = true → d.base.toNat % 4 = 0 →
    effectiveAddress rb imm8 s = d.base → resolve s.devices d.base = some k → s.devices[k]? = some d →
    d.state = .serial id regs →
    ∃ t rest, exec (.store ra rb imm8) s = .next t ∧ t.out = s.out ++ (s.getReg ra).extractLsb' 0 8 :: rest ∧
      t.pc = s.pc + 2 ∧ t.x = s.x ∧ t.ram = s.ram

/-! ### Bulk operations and the host -/

/-- 20_memory.md R53 and R54 (the zero length and the end's computation are decision D15): a byte sequence written inside RAM reads
back, and every other byte stays; a sequence whose start or end is not RAM is refused with the start address, and an empty
one does nothing. -/
def Obligations.BulkOperationsStayInRAM : Prop :=
  ∀ (a : Word) (data : List Byte) (s : State), Memory.wf s.ram = true → s.map.wf = true →
    (data = [] → writeBytes a data s = .ok s ∧ readBytes a 0 s = .ok []) ∧
    (data ≠ [] → isRAMAddress s.map a = true → a.toNat + data.length - 1 ≤ ramEnd s.map →
      ∃ ram, writeBytes a data s = .ok { s with ram := ram } ∧
        readBytes a data.length { s with ram := ram } = .ok data ∧
        ∀ k, k < a.toNat ∨ a.toNat + data.length ≤ k → ram.read k = s.ram.read k) ∧
    (data ≠ [] → ¬ (isRAMAddress s.map a = true ∧ a.toNat + data.length - 1 ≤ ramEnd s.map) →
      writeBytes a data s = .error (.outOfRange a) ∧ readBytes a data.length s = .error (.outOfRange a))

/-- 70_reset_and_hazards.md R153 (decisions D15, D30): the load of no bytes is EmptyInput; after run() it is refused; otherwise it
writes the bytes at LOAD_ADDR and changes nothing but RAM, or fails with OutOfRange. -/
def Obligations.LoadWritesTheBlobAtLoadAddress : Prop :=
  ∀ (blob : List Byte) (s : State), s.Inv →
    (s.runCalled = true → load blob s = .refused .loadAfterRun) ∧
    (s.runCalled = false → blob = [] → load blob s = .fault .emptyInput) ∧
    (s.runCalled = false → blob ≠ [] →
      (isRAMAddress s.map s.map.loadAddr = true → s.map.loadAddr.toNat + blob.length - 1 ≤ ramEnd s.map →
        ∃ ram, load blob s = .next { s with ram := ram } ∧ ram.readBytes s.map.loadAddr.toNat blob.length = blob ∧
          ∀ k, k < s.map.loadAddr.toNat ∨ s.map.loadAddr.toNat + blob.length ≤ k → ram.read k = s.ram.read k) ∧
      (¬ (isRAMAddress s.map s.map.loadAddr = true ∧ s.map.loadAddr.toNat + blob.length - 1 ≤ ramEnd s.map) →
        load blob s = .fault (.outOfRange s.map.loadAddr)))

/-- The host's register accessor (70_reset_and_hazards.md R156, decision D19): an index up to 15 reads or writes that register and
nothing else; a higher one raises OutOfRange to the caller. -/
def Obligations.RegisterAccessorChecksTheIndex : Prop :=
  ∀ (i v : Word) (s : State),
    (i.toNat < 16 →
      getRegister i s = .ok (s.getReg (BitVec.ofNat 4 i.toNat)) ∧
      setRegister i v s = .ok (s.setReg (BitVec.ofNat 4 i.toNat) v)) ∧
    (16 ≤ i.toNat → getRegister i s = .error (.outOfRange i) ∧ setRegister i v s = .error (.outOfRange i))

/-- 60_exceptions.md R126: OutOfRange, in each case of its table, with the info recorded: the fetch, LOAD and STORE inside a step,
the host's router access, bulk access and register accessor outside one. -/
def Obligations.OutOfRangeIsRaisedInEveryListedCase : Prop :=
  ∀ (s : State) (n : Width) (a v i : Word) (ra rb : Reg) (imm8 : Byte) (data : List Byte),
    (isValidAddress s.map s.pc = false → fetch s = .error (.outOfRange s.pc)) ∧
    (isValidAddress s.map (effectiveAddress rb imm8 s) = false →
      exec (.load ra rb imm8) s = raiseFault (.outOfRange (effectiveAddress rb imm8 s)) s ∧
      exec (.store ra rb imm8) s = raiseFault (.outOfRange (effectiveAddress rb imm8 s)) s) ∧
    (isValidAddress s.map a = false →
      hostMove (.routerRead n a) s = .toCaller (.outOfRange a) ∧
      hostMove (.routerWrite n a v) s = .toCaller (.outOfRange a)) ∧
    (data ≠ [] → ¬ (isRAMAddress s.map a = true ∧ a.toNat + data.length - 1 < 2 ^ 32 ∧
        isRAMAddress s.map (BitVec.ofNat 32 (a.toNat + data.length - 1)) = true) →
      hostMove (.writeBytes a data) s = .toCaller (.outOfRange a) ∧
      hostMove (.readBytes a data.length) s = .toCaller (.outOfRange a)) ∧
    (15 < i.toNat →
      hostMove (.getRegister i) s = .toCaller (.outOfRange i) ∧
      hostMove (.setRegister i v) s = .toCaller (.outOfRange i))

/-- What holds in every launch state (70_reset_and_hazards.md R155; the register presets are decision D19). -/
def Obligations.LaunchStatesAreFresh : Prop :=
  ∀ s : State, Launch s →
    s.fault = none ∧ s.running = false ∧ s.cycles = 0 ∧ s.pc = s.map.loadAddr ∧ (∀ d ∈ s.devices, d.reset = d) ∧
      s.out = [] ∧ s.Inv

/-! ### The instructions -/

/-- 10_state.md R19: no register is hard-wired; each, x[0] among them, reads as the last value written to it, and a write changes
no other. -/
def Obligations.EveryRegisterHoldsItsLastWrite : Prop :=
  ∀ (s : State) (r q : Reg) (v : Word),
    (s.setReg r v).getReg r = v ∧ (q ≠ r → (s.setReg r v).getReg q = s.getReg q)

/-- 10_state.md R22: how each instruction sets the pc, modulo 2^32 (decision D5). "The pc is updated only when the instruction
completes": a LOAD or STORE whose access passes the router's check completes and advances it; one whose access does not
takes the fault and leaves it (that the fault is a next state is the model's reading, log entry 8). -/
def Obligations.PcAfterEachInstruction : Prop :=
  ∀ (i : Instr) (s : State),
    let completesAt (p : Word) : Prop := ∃ t, exec i s = .next t ∧ t.pc = p
    let dataAccess (ea : Word) : Prop :=
      (checkAccess s.map .w32 ea = none → completesAt (s.pc + 2)) ∧
        ∀ f, checkAccess s.map .w32 ea = some f → exec i s = .next (takeFault f s) ∧ (takeFault f s).pc = s.pc
    match i with
    | .load _ b imm8 => dataAccess (effectiveAddress b imm8 s)
    | .store _ b imm8 => dataAccess (effectiveAddress b imm8 s)
    | .add _ _ _ => completesAt (s.pc + 2)
    | .sub _ _ _ => completesAt (s.pc + 2)
    | .mov _ _ => completesAt (s.pc + 2)
    | .jump a => completesAt (s.getReg a)
    | .branchEq a b imm8 =>
      completesAt (if s.getReg a = s.getReg b then s.pc + imm8.signExtend 32 * 2 + 2 else s.pc + 2)
    | .nop => completesAt (s.pc + 2)

/-- ADD (42_arith.md): completes in every state with the sum modulo 2^32 in x[A], a carry discarded, the sources read first, and
nothing else changed but the pc. -/
def Obligations.AddWritesTheWrappedSum : Prop :=
  ∀ (a b c : Reg) (s : State),
    exec (.add a b c) s = .next { s with
      x := s.x.set a.toNat (BitVec.ofNat 32 (((s.getReg b).toNat + (s.getReg c).toNat) % 2 ^ 32)) a.isLt
      pc := s.pc + 2 }

/-- SUB (42_arith.md): completes in every state with the difference modulo 2^32 in x[A], which wraps on underflow. -/
def Obligations.SubWritesTheWrappedDifference : Prop :=
  ∀ (a b c : Reg) (s : State),
    exec (.sub a b c) s = .next { s with
      x := s.x.set a.toNat (BitVec.ofInt 32 (((s.getReg b).toNat : Int) - ((s.getReg c).toNat : Int))) a.isLt
      pc := s.pc + 2 }

/-- MOV (42_arith.md): completes in every state with x[B] in x[A]. -/
def Obligations.MovCopiesTheRegister : Prop :=
  ∀ (a b : Reg) (s : State),
    exec (.mov a b) s = .next { s with x := s.x.set a.toNat (s.getReg b) a.isLt, pc := s.pc + 2 }

/-- JUMP (43_control.md): completes in every state with the pc at exactly x[A], unchecked, and nothing else changed. -/
def Obligations.JumpGoesToTheRegister : Prop :=
  ∀ (a : Reg) (s : State), exec (.jump a) s = .next { s with pc := s.getReg a }

/-- BRANCH_EQ (43_control.md): completes in every state; a taken branch moves the pc by sext(imm8)·2 + 2 in all, modulo 2^32
(decision D5), one not taken by 2, and nothing else changes. -/
def Obligations.BranchEqMovesThePc : Prop :=
  ∀ (a b : Reg) (imm8 : Byte) (s : State),
    exec (.branchEq a b imm8) s = .next { s with
      pc := if s.getReg a = s.getReg b then BitVec.ofInt 32 ((s.pc.toNat : Int) + imm8.toInt * 2 + 2) else s.pc + 2 }

/-- NOP (43_control.md): completes in every state and only advances the pc. -/
def Obligations.NopOnlyAdvances : Prop :=
  ∀ s : State, exec .nop s = .next { s with pc := s.pc + 2 }

/-- LOAD from RAM (41_load_store.md): with the effective address x[B] + zext(imm8) modulo 2^32 (decision D5) in RAM and a multiple
of 4, it completes with the four bytes there, least significant first, in x[A]; the base is read first. The access is 4
bytes wide by decision D4. -/
def Obligations.LoadReadsAWordOfRAM : Prop :=
  ∀ (a b : Reg) (imm8 : Byte) (s : State) (ea : Word),
    ea = BitVec.ofNat 32 (((s.getReg b).toNat + imm8.toNat) % 2 ^ 32) →
    isRAMAddress s.map ea = true → ea.toNat % 4 = 0 →
    exec (.load a b imm8) s = .next { s with
      x := s.x.set a.toNat (s.ram.read (ea.toNat + 3) ++ s.ram.read (ea.toNat + 2) ++ s.ram.read (ea.toNat + 1) ++
        s.ram.read ea.toNat) a.isLt
      pc := s.pc + 2 }

/-- LOAD from a device (41_load_store.md): with the effective address in the device zone and a multiple of 4, it completes with
the device's composed read in x[A], and the device as the read left it. -/
def Obligations.LoadReadsADevice : Prop :=
  ∀ (a b : Reg) (imm8 : Byte) (s : State) (k : Nat) (d : Device), s.Composed →
    isRAMAddress s.map (effectiveAddress b imm8 s) = false →
    isPeripheralAddress s.map (effectiveAddress b imm8 s) = true → (effectiveAddress b imm8 s).toNat % 4 = 0 →
    resolve s.devices (effectiveAddress b imm8 s) = some k → s.devices[k]? = some d →
    exec (.load a b imm8) s = .next { s with
      x := s.x.set a.toNat (d.read .w32 (effectiveAddress b imm8 s - d.base)).1 a.isLt
      devices := s.devices.set k (d.read .w32 (effectiveAddress b imm8 s - d.base)).2
      pc := s.pc + 2 }

/-- STORE to RAM (41_load_store.md): with the effective address in RAM and a multiple of 4, it completes with the bytes of x[A],
least significant first, in the four bytes there, and every other byte and all other state but the pc unchanged. -/
def Obligations.StoreWritesAWordOfRAM : Prop :=
  ∀ (a b : Reg) (imm8 : Byte) (s : State) (ea : Word), Memory.wf s.ram = true →
    ea = BitVec.ofNat 32 (((s.getReg b).toNat + imm8.toNat) % 2 ^ 32) →
    isRAMAddress s.map ea = true → ea.toNat % 4 = 0 →
    ∃ ram, exec (.store a b imm8) s = .next { s with ram := ram, pc := s.pc + 2 } ∧
      ram.read ea.toNat = (s.getReg a).extractLsb' 0 8 ∧ ram.read (ea.toNat + 1) = (s.getReg a).extractLsb' 8 8 ∧
      ram.read (ea.toNat + 2) = (s.getReg a).extractLsb' 16 8 ∧
      ram.read (ea.toNat + 3) = (s.getReg a).extractLsb' 24 8 ∧
      ∀ k, k < ea.toNat ∨ ea.toNat + 4 ≤ k → ram.read k = s.ram.read k

/-- STORE to a device (41_load_store.md): with the effective address in the device zone and a multiple of 4, it completes with the
device's composed write of x[A], and what the device emitted at the end of `out`. -/
def Obligations.StoreWritesADevice : Prop :=
  ∀ (a b : Reg) (imm8 : Byte) (s : State) (k : Nat) (d : Device), s.Composed →
    isRAMAddress s.map (effectiveAddress b imm8 s) = false →
    isPeripheralAddress s.map (effectiveAddress b imm8 s) = true → (effectiveAddress b imm8 s).toNat % 4 = 0 →
    resolve s.devices (effectiveAddress b imm8 s) = some k → s.devices[k]? = some d →
    exec (.store a b imm8) s = .next { s with
      devices := s.devices.set k (d.write .w32 (effectiveAddress b imm8 s - d.base) (s.getReg a)).1
      out := s.out ++ (d.write .w32 (effectiveAddress b imm8 s - d.base) (s.getReg a)).2
      pc := s.pc + 2 }

/-- Where LOAD and STORE trap (41_load_store.md; the order of the checks is decision D7): OutOfRange of an effective address in
neither zone, Alignment of a valid one that is not a multiple of 4; no register, byte or pc is written. -/
def Obligations.LoadAndStoreTrapOnABadAddress : Prop :=
  ∀ (a b : Reg) (imm8 : Byte) (s : State) (ea : Word), ea = effectiveAddress b imm8 s →
    (isValidAddress s.map ea = false →
      exec (.load a b imm8) s =
        .next { s with fault := some ⟨.outOfRange, s.cycles, s.pc, ea⟩, running := false } ∧
      exec (.store a b imm8) s =
        .next { s with fault := some ⟨.outOfRange, s.cycles, s.pc, ea⟩, running := false }) ∧
    (isValidAddress s.map ea = true → ea.toNat % 4 ≠ 0 →
      exec (.load a b imm8) s =
        .next { s with fault := some ⟨.alignment, s.cycles, s.pc, ea⟩, running := false } ∧
      exec (.store a b imm8) s =
        .next { s with fault := some ⟨.alignment, s.cycles, s.pc, ea⟩, running := false })

/-- The frame of ADD, SUB and MOV: every register but the destination x[A], every byte of RAM, every device, the output and
the Run Loop's state are unchanged (42_arith.md; 10_state.md R24: no flag exists to change). -/
def Obligations.RegisterInstructionsFrame : Prop :=
  ∀ (a b c : Reg) (s t : State),
    (exec (.add a b c) s = .next t ∨ exec (.sub a b c) s = .next t ∨ exec (.mov a b) s = .next t) →
    (∀ q : Reg, q ≠ a → t.getReg q = s.getReg q) ∧ (∀ k, t.ram.read k = s.ram.read k) ∧ t.devices = s.devices ∧
      t.out = s.out ∧ t.running = s.running ∧ t.cycles = s.cycles ∧ t.fault = s.fault ∧ t.hooks = s.hooks ∧ t.map = s.map ∧
      t.runCalled = s.runCalled

/-- The frame of JUMP, BRANCH_EQ and NOP: no register, byte of RAM or device changes, nor the output or the Run Loop's state;
only the pc may (43_control.md). -/
def Obligations.ControlInstructionsFrame : Prop :=
  ∀ (a b : Reg) (imm8 : Byte) (s t : State),
    (exec (.jump a) s = .next t ∨ exec (.branchEq a b imm8) s = .next t ∨ exec .nop s = .next t) →
    (∀ q : Reg, t.getReg q = s.getReg q) ∧ (∀ k, t.ram.read k = s.ram.read k) ∧ t.devices = s.devices ∧
      t.out = s.out ∧ t.running = s.running ∧ t.cycles = s.cycles ∧ t.fault = s.fault ∧ t.hooks = s.hooks ∧ t.map = s.map ∧
      t.runCalled = s.runCalled

/-- The frame of LOAD: every register but x[A] and every byte of RAM are unchanged, and every device but the one that resolves
for the effective address, which is unchanged too where that address is in RAM; nothing is emitted; the count and the parameters stay. Where it traps, x[A] and every device are
unchanged too (41_load_store.md). -/
def Obligations.LoadFrame : Prop :=
  ∀ (a b : Reg) (imm8 : Byte) (s t : State), exec (.load a b imm8) s = .next t →
    (∀ q : Reg, q ≠ a → t.getReg q = s.getReg q) ∧ (∀ k, t.ram.read k = s.ram.read k) ∧
      (∀ k, resolve s.devices (effectiveAddress b imm8 s) ≠ some k → t.devices[k]? = s.devices[k]?) ∧
      (isRAMAddress s.map (effectiveAddress b imm8 s) = true → t.devices = s.devices) ∧
      t.out = s.out ∧ t.cycles = s.cycles ∧ t.hooks = s.hooks ∧ t.map = s.map ∧ t.runCalled = s.runCalled ∧
      ((t.running = s.running ∧ t.fault = s.fault) ∨ ∃ f, t = takeFault f s)

/-- The frame of STORE: no register changes; every byte of RAM outside the four at the effective address reads as before, and
where that address is not in RAM every byte does; every device but the one that resolves for it is unchanged; the output
only grows; the count and the parameters stay (41_load_store.md). -/
def Obligations.StoreFrame : Prop :=
  ∀ (a b : Reg) (imm8 : Byte) (s t : State) (ea : Word), Memory.wf s.ram = true → ea = effectiveAddress b imm8 s →
    exec (.store a b imm8) s = .next t →
    (∀ q : Reg, t.getReg q = s.getReg q) ∧
      (∀ k, k < ea.toNat ∨ ea.toNat + 4 ≤ k → t.ram.read k = s.ram.read k) ∧
      (isRAMAddress s.map ea = false → t.ram = s.ram) ∧
      (∀ k, resolve s.devices ea ≠ some k → t.devices[k]? = s.devices[k]?) ∧
      (isRAMAddress s.map ea = true → t.devices = s.devices ∧ t.out = s.out) ∧
      (∃ emitted, t.out = s.out ++ emitted) ∧ t.cycles = s.cycles ∧ t.hooks = s.hooks ∧ t.map = s.map ∧
      t.runCalled = s.runCalled ∧ ((t.running = s.running ∧ t.fault = s.fault) ∨ ∃ f, t = takeFault f s)

/-- A STORE is seen by the next fetch of the bytes it wrote: a word stored in RAM is the word a fetch there reads
(20_memory.md R75, which the spec derives from R45, R47 and R96). -/
def Obligations.StoredWordIsTheWordFetched : Prop :=
  ∀ (a b : Reg) (imm8 : Byte) (s t u : State), s.Inv → isRAMAddress s.map (effectiveAddress b imm8 s) = true →
    (effectiveAddress b imm8 s).toNat % 4 = 0 → exec (.store a b imm8) s = .next t → u.ram = t.ram → u.map = t.map →
    u.pc = effectiveAddress b imm8 s → fetch u = .ok (s.getReg a, u)
end

