-- ==== Sys2Proof/Laws/Devices.lean ====
section
/-! SUPPORT. Devices: what every device operation keeps (the entry, well-formedness), and what resolve answers. -/

namespace Sys2Proof.Machine

/-- Every device operation moves the state of one kind to a state of that kind. -/
theorem kind_read8 (st : DeviceState) (o : Word) : (st.read8 o).2.kind = st.kind := by cases st <;> rfl
theorem kind_write8 (st : DeviceState) (o : Word) (v : Byte) : (st.write8 o v).1.kind = st.kind := by cases st <;> rfl
theorem kind_update (st : DeviceState) : st.update.kind = st.kind := by cases st <;> rfl
theorem kind_initialState (size : Nat) (k : DeviceKind) : (initialState size k).kind = k := by cases k <;> rfl

@[simp] theorem entry_read8 (d : Device) (o : Word) : (d.read8 o).2.entry = d.entry := by
  simp [Device.entry, Device.read8, kind_read8]
@[simp] theorem entry_write8 (d : Device) (o : Word) (v : Byte) : (d.write8 o v).1.entry = d.entry := by
  simp [Device.entry, Device.write8, kind_write8]
@[simp] theorem entry_update (d : Device) : d.update.entry = d.entry := by
  simp [Device.entry, Device.update, kind_update]
@[simp] theorem entry_reset (d : Device) : d.reset.entry = d.entry := by
  simp [Device.entry, Device.reset, kind_initialState]
@[simp] theorem entry_constructDevice (e : DeviceEntry) : (constructDevice e).entry = e := by
  simp [Device.entry, constructDevice, kind_initialState]

theorem wf_iff (d : Device) :
    d.wf = true ↔ d.entry.wf = true ∧ ∀ bytes updates, d.state = .fixture bytes updates → bytes.length = d.size := by
  unfold Device.wf
  split
  · rename_i bytes updates h; simp [h]
  · rename_i h; simp only [Bool.and_true, iff_self_and]; intro _ bytes updates e; exact absurd e (h bytes updates)

theorem wf_read8 (d : Device) (o : Word) (h : d.wf = true) : (d.read8 o).2.wf = true := by
  rw [wf_iff] at h ⊢
  refine ⟨by simpa using h.1, fun bytes updates e => ?_⟩
  cases hs : d.state <;> simp [Device.read8, DeviceState.read8, hs] at e
  exact h.2 bytes updates (by rw [hs, e.1, e.2])

theorem wf_write8 (d : Device) (o : Word) (v : Byte) (h : d.wf = true) : (d.write8 o v).1.wf = true := by
  rw [wf_iff] at h ⊢
  refine ⟨by simpa using h.1, fun bytes updates e => ?_⟩
  cases hs : d.state <;> simp [Device.write8, DeviceState.write8, hs] at e
  have := h.2 _ _ hs
  simpa [Device.write8, ← e.1, fixtureWrite8] using this

theorem wf_update (d : Device) (h : d.wf = true) : d.update.wf = true := by
  rw [wf_iff] at h ⊢
  refine ⟨by simpa using h.1, fun bytes updates e => ?_⟩
  cases hs : d.state <;> simp [Device.update, DeviceState.update, hs] at e
  exact h.2 bytes _ (by rw [hs, e.1])

theorem initialState_length {size : Nat} {k : DeviceKind} {bytes : List Byte} {updates : Nat}
    (h : initialState size k = .fixture bytes updates) : bytes.length = size := by
  cases k <;> simp [initialState] at h
  simp [← h.1]

theorem wf_reset (d : Device) (h : d.wf = true) : d.reset.wf = true := by
  rw [wf_iff] at h ⊢
  exact ⟨by simpa using h.1, fun bytes updates e => initialState_length e⟩

theorem wf_constructDevice (e : DeviceEntry) (h : e.wf = true) : (constructDevice e).wf = true := by
  rw [wf_iff]
  exact ⟨by simpa using h, fun bytes updates h => initialState_length h⟩

/-- A chain of byte reads keeps the entry and well-formedness. -/
theorem readSeq_keeps (n : Nat) (o : Word) (d : Device) :
    (Device.readSeq n o d).2.entry = d.entry ∧ (d.wf = true → (Device.readSeq n o d).2.wf = true) := by
  induction n generalizing o d with
  | zero => exact ⟨rfl, id⟩
  | succ n ih =>
    obtain ⟨he, hw⟩ := ih (o + 1) (d.read8 o).2
    exact ⟨he.trans (entry_read8 d o), fun h => hw (wf_read8 d o h)⟩

/-- A chain of byte writes keeps the entry and well-formedness. -/
theorem writeSeq_keeps (vs : List Byte) (o : Word) (d : Device) :
    (Device.writeSeq vs o d).1.entry = d.entry ∧ (d.wf = true → (Device.writeSeq vs o d).1.wf = true) := by
  induction vs generalizing o d with
  | nil => exact ⟨rfl, id⟩
  | cons v vs ih =>
    obtain ⟨he, hw⟩ := ih (o + 1) (d.write8 o v).1
    exact ⟨he.trans (entry_write8 d o v), fun h => hw (wf_write8 d o v h)⟩

/-- resolve answers an index of the list whose device holds the address, and no earlier one does. -/
theorem resolve_some {ds : List Device} {a : Word} {k : Nat} (h : resolve ds a = some k) :
    ∃ d, ds[k]? = some d ∧ d.isInRange a = true ∧ ∀ j e, j < k → ds[j]? = some e → e.isInRange a = false := by
  induction ds generalizing k with
  | nil => simp [resolve] at h
  | cons d ds ih =>
    simp only [resolve] at h
    by_cases hd : d.isInRange a = true
    · obtain rfl : 0 = k := by simpa [hd] using h
      exact ⟨d, by simp, hd, by omega⟩
    · rw [if_neg hd] at h
      obtain ⟨j, hj, rfl⟩ := Option.map_eq_some_iff.mp h
      obtain ⟨e, he, hr, hlt⟩ := ih hj
      refine ⟨e, by simpa using he, hr, fun i f hi hf => ?_⟩
      cases i with
      | zero => simp only [List.getElem?_cons_zero, Option.some.injEq] at hf; subst hf; simpa using hd
      | succ i => exact hlt i f (by omega) (by simpa using hf)

/-- resolve answers none exactly where no device holds the address. -/
theorem resolve_none {ds : List Device} {a : Word} : resolve ds a = none ↔ ∀ d ∈ ds, d.isInRange a = false := by
  induction ds with
  | nil => simp [resolve]
  | cons d ds ih =>
    simp only [resolve, List.mem_cons, forall_eq_or_imp]
    split
    · simp_all
    · rw [Option.map_eq_none_iff, ih]; simp_all

end Sys2Proof.Machine
end

