-- ==== Sys2Proof/Laws/Memory.lean ====
section
/-! SUPPORT. RAM as a canonical list: a read after a write, what a write leaves, and that writing keeps the form. -/

namespace Sys2Proof.Machine

theorem above_iff (a : Nat) (m : Memory) : Memory.above a m = true ↔ ∀ c ∈ m, a < c.1 := by
  simp [Memory.above]

/-- In an empty or higher-lying memory an address reads as unlisted. -/
theorem read_of_above (m : Memory) (a : Nat) (h : ∀ c ∈ m, a < c.1) : m.read a = Memory.unlisted := by
  induction m with
  | nil => rfl
  | cons c m ih =>
    have hc : a < c.1 := h c (by simp)
    have hne : ¬ c.1 = a := by omega
    simp only [Memory.read, hne, if_false]
    exact ih fun d hd => h d (by simp [hd])

theorem wf_cons_iff (k : Nat) (u : Byte) (m : Memory) :
    Memory.wf ((k, u) :: m) = true ↔ u ≠ Memory.unlisted ∧ (∀ c ∈ m, k < c.1) ∧ Memory.wf m = true := by
  simp [Memory.wf, above_iff, and_assoc]

theorem mem_memoryCons {a : Nat} {v : Byte} {m : Memory} {c : Host.Cell} (h : c ∈ Memory.cons a v m) :
    c = (a, v) ∨ c ∈ m := by
  unfold Memory.cons at h
  split at h
  · exact .inr h
  · simpa using h

/-- An entry of a written memory is an old one or the written one. -/
theorem mem_write {m : Memory} {a : Nat} {v : Byte} {c : Host.Cell} (h : c ∈ m.write a v) :
    c ∈ m ∨ c = (a, v) := by
  induction m with
  | nil => exact (mem_memoryCons h).symm
  | cons d m ih =>
    obtain ⟨k, u⟩ := d
    simp only [Memory.write] at h
    split at h
    · exact (mem_memoryCons h).symm
    · split at h
      · rcases mem_memoryCons h with rfl | hm
        · exact .inr rfl
        · exact .inl (by simp [hm])
      · rcases List.mem_cons.mp h with rfl | hm
        · exact .inl (by simp)
        · exact (ih hm).imp (fun hc => by simp [hc]) id

theorem wf_memoryCons {a : Nat} {v : Byte} {m : Memory} (ha : ∀ c ∈ m, a < c.1) (hm : Memory.wf m = true) :
    Memory.wf (Memory.cons a v m) = true := by
  unfold Memory.cons
  split
  · exact hm
  · exact (wf_cons_iff a v m).mpr ⟨‹_›, ha, hm⟩

/-- Writing a byte keeps the canonical form. -/
theorem wf_write {m : Memory} (a : Nat) (v : Byte) (hm : Memory.wf m = true) : Memory.wf (m.write a v) = true := by
  induction m with
  | nil => exact wf_memoryCons (by simp) rfl
  | cons d m ih =>
    obtain ⟨k, u⟩ := d
    obtain ⟨hu, hk, hw⟩ := (wf_cons_iff k u m).mp hm
    simp only [Memory.write]
    split
    · refine wf_memoryCons (fun c hc => ?_) hm
      rcases List.mem_cons.mp hc with rfl | hc
      · assumption
      · have := hk c hc; omega
    · split
      · subst_vars; exact wf_memoryCons hk hw
      · refine (wf_cons_iff _ _ _).mpr ⟨hu, fun c hc => ?_, ih hw⟩
        rcases mem_write hc with hc | rfl
        · exact hk c hc
        · show k < a; omega

theorem read_memoryCons {a : Nat} {v : Byte} {m : Memory} (b : Nat) (ha : ∀ c ∈ m, a < c.1) :
    (Memory.cons a v m).read b = if b = a then v else m.read b := by
  unfold Memory.cons
  split
  · rename_i hv
    by_cases hb : b = a
    · subst hb; simp [hv, read_of_above m b ha]
    · simp [hb]
  · by_cases hb : b = a
    · simp [Memory.read, hb]
    · have : ¬ a = b := fun h => hb h.symm
      simp [Memory.read, hb, this]

/-- A read after a write: the byte written at its own address, the old byte at any other. -/
theorem read_write {m : Memory} (a b : Nat) (v : Byte) (hm : Memory.wf m = true) :
    (m.write a v).read b = if b = a then v else m.read b := by
  induction m with
  | nil => simpa [Memory.write] using read_memoryCons b (by simp)
  | cons d m ih =>
    obtain ⟨k, u⟩ := d
    obtain ⟨_, hk, hw⟩ := (wf_cons_iff k u m).mp hm
    simp only [Memory.write]
    split
    · refine read_memoryCons b fun c hc => ?_
      rcases List.mem_cons.mp hc with rfl | hc
      · assumption
      · have := hk c hc; omega
    · split
      · subst_vars
        rw [read_memoryCons b hk]
        by_cases hb : b = k
        · simp [hb]
        · have : ¬ k = b := fun h => hb h.symm
          simp [hb, Memory.read, this]
      · simp only [Memory.read, ih hw]
        by_cases hkb : k = b
        · have : ¬ b = a := by omega
          simp [hkb, this]
        · simp [hkb]

/-- Writing a byte sequence keeps the canonical form. -/
theorem wf_writeBytes {m : Memory} (a : Nat) (vs : List Byte) (hm : Memory.wf m = true) :
    Memory.wf (m.writeBytes a vs) = true := by
  induction vs generalizing m a with
  | nil => exact hm
  | cons v vs ih => exact ih (a + 1) (wf_write a v hm)

/-- An entry of a memory written over is an old one or lies in the range written. -/
theorem mem_writeBytes {m : Memory} {a : Nat} {vs : List Byte} {c : Host.Cell} (h : c ∈ m.writeBytes a vs) :
    c ∈ m ∨ (a ≤ c.1 ∧ c.1 < a + vs.length) := by
  induction vs generalizing m a with
  | nil => exact .inl h
  | cons v vs ih =>
    rcases ih h with h | h
    · rcases mem_write h with h | rfl
      · exact .inl h
      · exact .inr (by simp)
    · exact .inr (by simp only [List.length_cons]; omega)

/-- A byte after a sequence is written: the sequence's inside its range, the old one outside. -/
theorem read_writeBytes {m : Memory} (a b : Nat) (vs : List Byte) (hm : Memory.wf m = true) :
    (m.writeBytes a vs).read b = if a ≤ b ∧ b < a + vs.length then vs.getD (b - a) 0 else m.read b := by
  induction vs generalizing m a with
  | nil =>
    have : ¬ (a ≤ b ∧ b < a) := by omega
    simp [Memory.writeBytes, this]
  | cons v vs ih =>
    rw [Memory.writeBytes, ih (a + 1) (wf_write a v hm), read_write a b v hm]
    simp only [List.length_cons]
    by_cases h1 : a + 1 ≤ b ∧ b < a + 1 + vs.length
    · have h2 : a ≤ b ∧ b < a + (vs.length + 1) := by omega
      have h3 : b - a = (b - (a + 1)) + 1 := by omega
      simp [h1, h2, h3]
    · by_cases hb : b = a
      · subst hb; simp
      · have h2 : ¬ (a ≤ b ∧ b < a + (vs.length + 1)) := by omega
        rw [if_neg h1, if_neg hb, if_neg h2]

@[simp] theorem length_readBytes (m : Memory) (a n : Nat) : (m.readBytes a n).length = n := by
  induction n generalizing a with
  | zero => rfl
  | succ n ih => simp [Memory.readBytes, ih]

/-- The bytes of a range, one by one. -/
theorem getD_readBytes (m : Memory) (a n i : Nat) (h : i < n) : (m.readBytes a n).getD i 0 = m.read (a + i) := by
  induction n generalizing a i with
  | zero => omega
  | succ n ih =>
    cases i with
    | zero => simp [Memory.readBytes]
    | succ i =>
      have := ih (a + 1) i (by omega)
      simp only [Memory.readBytes, List.getD_cons_succ, this]
      congr 1
      omega

/-- What was written over a whole range is what it reads as. -/
theorem readBytes_writeBytes {m : Memory} (a : Nat) (vs : List Byte) (hm : Memory.wf m = true) :
    (m.writeBytes a vs).readBytes a vs.length = vs := by
  apply List.ext_getElem (by simp)
  intro i h1 h2
  have h := getD_readBytes (m.writeBytes a vs) a vs.length i h2
  rw [read_writeBytes _ _ _ hm, if_pos ⟨by omega, by omega⟩, Nat.add_sub_cancel_left] at h
  rwa [List.getD_eq_getElem _ _ h1, List.getD_eq_getElem _ _ h2] at h

end Sys2Proof.Machine
end

