-- ==== Sys2Proof/Laws/State.lean ====
section
/-! SUPPORT. One lemma for each field of State under each update of it, so that no proof unfolds a record update. -/

namespace Sys2Proof.Machine

/-! ### setReg -/

@[simp] theorem setReg_x (s : State) (r : Reg) (v : Word) : (s.setReg r v).x = s.x.set r.toNat v r.isLt := rfl
@[simp] theorem setReg_pc (s : State) (r : Reg) (v : Word) : (s.setReg r v).pc = s.pc := rfl
@[simp] theorem setReg_running (s : State) (r : Reg) (v : Word) : (s.setReg r v).running = s.running := rfl
@[simp] theorem setReg_cycles (s : State) (r : Reg) (v : Word) : (s.setReg r v).cycles = s.cycles := rfl
@[simp] theorem setReg_fault (s : State) (r : Reg) (v : Word) : (s.setReg r v).fault = s.fault := rfl
@[simp] theorem setReg_ram (s : State) (r : Reg) (v : Word) : (s.setReg r v).ram = s.ram := rfl
@[simp] theorem setReg_hooks (s : State) (r : Reg) (v : Word) : (s.setReg r v).hooks = s.hooks := rfl
@[simp] theorem setReg_devices (s : State) (r : Reg) (v : Word) : (s.setReg r v).devices = s.devices := rfl
@[simp] theorem setReg_out (s : State) (r : Reg) (v : Word) : (s.setReg r v).out = s.out := rfl
@[simp] theorem setReg_map (s : State) (r : Reg) (v : Word) : (s.setReg r v).map = s.map := rfl
@[simp] theorem setReg_runCalled (s : State) (r : Reg) (v : Word) : (s.setReg r v).runCalled = s.runCalled := rfl

/-! ### setPc -/

@[simp] theorem setPc_x (s : State) (t : Word) : (s.setPc t).x = s.x := rfl
@[simp] theorem setPc_pc (s : State) (t : Word) : (s.setPc t).pc = t := rfl
@[simp] theorem setPc_running (s : State) (t : Word) : (s.setPc t).running = s.running := rfl
@[simp] theorem setPc_cycles (s : State) (t : Word) : (s.setPc t).cycles = s.cycles := rfl
@[simp] theorem setPc_fault (s : State) (t : Word) : (s.setPc t).fault = s.fault := rfl
@[simp] theorem setPc_ram (s : State) (t : Word) : (s.setPc t).ram = s.ram := rfl
@[simp] theorem setPc_hooks (s : State) (t : Word) : (s.setPc t).hooks = s.hooks := rfl
@[simp] theorem setPc_devices (s : State) (t : Word) : (s.setPc t).devices = s.devices := rfl
@[simp] theorem setPc_out (s : State) (t : Word) : (s.setPc t).out = s.out := rfl
@[simp] theorem setPc_map (s : State) (t : Word) : (s.setPc t).map = s.map := rfl
@[simp] theorem setPc_runCalled (s : State) (t : Word) : (s.setPc t).runCalled = s.runCalled := rfl

/-! ### advance -/

@[simp] theorem advance_x (s : State) : (s.advance).x = s.x := rfl
@[simp] theorem advance_pc (s : State) : (s.advance).pc = s.pc + 2 := rfl
@[simp] theorem advance_running (s : State) : (s.advance).running = s.running := rfl
@[simp] theorem advance_cycles (s : State) : (s.advance).cycles = s.cycles := rfl
@[simp] theorem advance_fault (s : State) : (s.advance).fault = s.fault := rfl
@[simp] theorem advance_ram (s : State) : (s.advance).ram = s.ram := rfl
@[simp] theorem advance_hooks (s : State) : (s.advance).hooks = s.hooks := rfl
@[simp] theorem advance_devices (s : State) : (s.advance).devices = s.devices := rfl
@[simp] theorem advance_out (s : State) : (s.advance).out = s.out := rfl
@[simp] theorem advance_map (s : State) : (s.advance).map = s.map := rfl
@[simp] theorem advance_runCalled (s : State) : (s.advance).runCalled = s.runCalled := rfl

/-! ### ramWrite -/

@[simp] theorem ramWrite_x (n : Width) (a v : Word) (s : State) : (ramWrite n a v s).x = s.x := rfl
@[simp] theorem ramWrite_pc (n : Width) (a v : Word) (s : State) : (ramWrite n a v s).pc = s.pc := rfl
@[simp] theorem ramWrite_running (n : Width) (a v : Word) (s : State) : (ramWrite n a v s).running = s.running := rfl
@[simp] theorem ramWrite_cycles (n : Width) (a v : Word) (s : State) : (ramWrite n a v s).cycles = s.cycles := rfl
@[simp] theorem ramWrite_fault (n : Width) (a v : Word) (s : State) : (ramWrite n a v s).fault = s.fault := rfl
@[simp] theorem ramWrite_ram (n : Width) (a v : Word) (s : State) : (ramWrite n a v s).ram = s.ram.writeBytes a.toNat (splitLE n.bytes v) := rfl
@[simp] theorem ramWrite_hooks (n : Width) (a v : Word) (s : State) : (ramWrite n a v s).hooks = s.hooks := rfl
@[simp] theorem ramWrite_devices (n : Width) (a v : Word) (s : State) : (ramWrite n a v s).devices = s.devices := rfl
@[simp] theorem ramWrite_out (n : Width) (a v : Word) (s : State) : (ramWrite n a v s).out = s.out := rfl
@[simp] theorem ramWrite_map (n : Width) (a v : Word) (s : State) : (ramWrite n a v s).map = s.map := rfl
@[simp] theorem ramWrite_runCalled (n : Width) (a v : Word) (s : State) : (ramWrite n a v s).runCalled = s.runCalled := rfl

/-! ### takeFault -/

@[simp] theorem takeFault_x (f : Fault) (s : State) : (takeFault f s).x = s.x := rfl
@[simp] theorem takeFault_pc (f : Fault) (s : State) : (takeFault f s).pc = s.pc := rfl
@[simp] theorem takeFault_running (f : Fault) (s : State) : (takeFault f s).running = false := rfl
@[simp] theorem takeFault_cycles (f : Fault) (s : State) : (takeFault f s).cycles = s.cycles := rfl
@[simp] theorem takeFault_fault (f : Fault) (s : State) : (takeFault f s).fault = some (faultRecord f s) := rfl
@[simp] theorem takeFault_ram (f : Fault) (s : State) : (takeFault f s).ram = s.ram := rfl
@[simp] theorem takeFault_hooks (f : Fault) (s : State) : (takeFault f s).hooks = s.hooks := rfl
@[simp] theorem takeFault_devices (f : Fault) (s : State) : (takeFault f s).devices = s.devices := rfl
@[simp] theorem takeFault_out (f : Fault) (s : State) : (takeFault f s).out = s.out := rfl
@[simp] theorem takeFault_map (f : Fault) (s : State) : (takeFault f s).map = s.map := rfl
@[simp] theorem takeFault_runCalled (f : Fault) (s : State) : (takeFault f s).runCalled = s.runCalled := rfl

/-! ### completeStep -/

@[simp] theorem completeStep_x (s : State) : (completeStep s).x = s.x := rfl
@[simp] theorem completeStep_pc (s : State) : (completeStep s).pc = s.pc := rfl
@[simp] theorem completeStep_running (s : State) : (completeStep s).running = s.running := rfl
@[simp] theorem completeStep_cycles (s : State) : (completeStep s).cycles = s.cycles + 1 := rfl
@[simp] theorem completeStep_fault (s : State) : (completeStep s).fault = s.fault := rfl
@[simp] theorem completeStep_ram (s : State) : (completeStep s).ram = s.ram := rfl
@[simp] theorem completeStep_hooks (s : State) : (completeStep s).hooks = s.hooks := rfl
@[simp] theorem completeStep_devices (s : State) : (completeStep s).devices = s.devices.map Device.update := rfl
@[simp] theorem completeStep_out (s : State) : (completeStep s).out = s.out := rfl
@[simp] theorem completeStep_map (s : State) : (completeStep s).map = s.map := rfl
@[simp] theorem completeStep_runCalled (s : State) : (completeStep s).runCalled = s.runCalled := rfl

/-! ### stopRun -/

@[simp] theorem stopRun_x (s : State) : (stopRun s).x = s.x := rfl
@[simp] theorem stopRun_pc (s : State) : (stopRun s).pc = s.pc := rfl
@[simp] theorem stopRun_running (s : State) : (stopRun s).running = false := rfl
@[simp] theorem stopRun_cycles (s : State) : (stopRun s).cycles = s.cycles := rfl
@[simp] theorem stopRun_fault (s : State) : (stopRun s).fault = s.fault := rfl
@[simp] theorem stopRun_ram (s : State) : (stopRun s).ram = s.ram := rfl
@[simp] theorem stopRun_hooks (s : State) : (stopRun s).hooks = s.hooks := rfl
@[simp] theorem stopRun_devices (s : State) : (stopRun s).devices = s.devices := rfl
@[simp] theorem stopRun_out (s : State) : (stopRun s).out = s.out := rfl
@[simp] theorem stopRun_map (s : State) : (stopRun s).map = s.map := rfl
@[simp] theorem stopRun_runCalled (s : State) : (stopRun s).runCalled = s.runCalled := rfl

/-! ### resetDevice -/

@[simp] theorem resetDevice_x (k : Nat) (s : State) : (resetDevice k s).x = s.x := rfl
@[simp] theorem resetDevice_pc (k : Nat) (s : State) : (resetDevice k s).pc = s.pc := rfl
@[simp] theorem resetDevice_running (k : Nat) (s : State) : (resetDevice k s).running = s.running := rfl
@[simp] theorem resetDevice_cycles (k : Nat) (s : State) : (resetDevice k s).cycles = s.cycles := rfl
@[simp] theorem resetDevice_fault (k : Nat) (s : State) : (resetDevice k s).fault = s.fault := rfl
@[simp] theorem resetDevice_ram (k : Nat) (s : State) : (resetDevice k s).ram = s.ram := rfl
@[simp] theorem resetDevice_hooks (k : Nat) (s : State) : (resetDevice k s).hooks = s.hooks := rfl
@[simp] theorem resetDevice_devices (k : Nat) (s : State) : (resetDevice k s).devices = s.devices.modify k Device.reset := rfl
@[simp] theorem resetDevice_out (k : Nat) (s : State) : (resetDevice k s).out = s.out := rfl
@[simp] theorem resetDevice_map (k : Nat) (s : State) : (resetDevice k s).map = s.map := rfl
@[simp] theorem resetDevice_runCalled (k : Nat) (s : State) : (resetDevice k s).runCalled = s.runCalled := rfl

/-! ### Registers -/

theorem getReg_setReg_same (s : State) (r : Reg) (v : Word) : (s.setReg r v).getReg r = v := by
  simp [State.getReg]

theorem getReg_setReg_other (s : State) (r q : Reg) (v : Word) (h : q ≠ r) :
    (s.setReg r v).getReg q = s.getReg q := by
  have hn : r.toNat ≠ q.toNat := fun e => h (BitVec.eq_of_toNat_eq e.symm)
  simp [State.getReg, Vector.getElem_set_ne _ _ hn]

/-- A register depends on `x` alone. -/
theorem getReg_congr {s t : State} (h : t.x = s.x) (q : Reg) : t.getReg q = s.getReg q := by
  simp [State.getReg, h]

@[simp] theorem getReg_setPc (s : State) (t : Word) (q : Reg) : (s.setPc t).getReg q = s.getReg q := rfl
@[simp] theorem getReg_advance (s : State) (q : Reg) : s.advance.getReg q = s.getReg q := rfl
@[simp] theorem getReg_takeFault (f : Fault) (s : State) (q : Reg) : (takeFault f s).getReg q = s.getReg q := rfl
@[simp] theorem getReg_completeStep (s : State) (q : Reg) : (completeStep s).getReg q = s.getReg q := rfl
@[simp] theorem getReg_ramWrite (n : Width) (a v : Word) (s : State) (q : Reg) :
    (ramWrite n a v s).getReg q = s.getReg q := rfl

end Sys2Proof.Machine
end

