-- ==== Sys2Proof/Laws/Ops.lean ====
section
/-! SUPPORT. One lemma for each shared operation that says all it can do, for proofs to cite instead of unfolding it. -/

namespace Sys2Proof.Machine

/-! ### The router's check -/

theorem checkAccess_none {m : MemoryMap} {n : Width} {a : Word} :
    checkAccess m n a = none ↔ isValidAddress m a = true ∧ a.toNat % n.bytes = 0 := by
  unfold checkAccess
  cases isValidAddress m a <;> simp

theorem checkAccess_invalid {m : MemoryMap} {n : Width} {a : Word} (h : isValidAddress m a = false) :
    checkAccess m n a = some (.outOfRange a) := by
  simp [checkAccess, h]

theorem checkAccess_misaligned {m : MemoryMap} {n : Width} {a : Word} (h : isValidAddress m a = true)
    (ha : a.toNat % n.bytes ≠ 0) : checkAccess m n a = some (.alignment a) := by
  simp [checkAccess, h, ha]

/-- What the check can answer. -/
theorem checkAccess_some {m : MemoryMap} {n : Width} {a : Word} {f : Fault} (h : checkAccess m n a = some f) :
    (isValidAddress m a = false ∧ f = .outOfRange a) ∨
      (isValidAddress m a = true ∧ a.toNat % n.bytes ≠ 0 ∧ f = .alignment a) := by
  cases hv : isValidAddress m a
  · rw [checkAccess_invalid hv] at h
    exact .inl ⟨rfl, (Option.some.inj h).symm⟩
  · by_cases ha : a.toNat % n.bytes = 0
    · rw [checkAccess_none.mpr ⟨hv, ha⟩] at h; cases h
    · rw [checkAccess_misaligned hv ha] at h
      exact .inr ⟨rfl, ha, (Option.some.inj h).symm⟩

/-- The constraints of 20_memory.md R40, as facts about numbers. -/
theorem mapWf_iff (m : MemoryMap) :
    m.wf = true ↔ m.deviceBase.toNat ≤ m.ramBase.toNat ∧ 1 ≤ m.ramSize ∧ m.ramBase.toNat + m.ramSize ≤ 2 ^ 32 ∧
      m.deviceBase.toNat % 4 = 0 ∧ m.ramBase.toNat % 4 = 0 ∧ m.ramSize % 4 = 0 := by
  simp [MemoryMap.wf, MemoryMap.zonesOrdered, MemoryMap.ramNonempty, MemoryMap.ramNoWrap, MemoryMap.aligned, and_assoc]

theorem isRAMAddress_iff (m : MemoryMap) (a : Word) :
    isRAMAddress m a = true ↔ m.ramBase.toNat ≤ a.toNat ∧ a.toNat ≤ ramEnd m := by
  simp [isRAMAddress]

/-! ### Bytes -/

@[simp] theorem length_splitLE (n : Nat) (v : Word) : (splitLE n v).length = n := by
  induction n generalizing v with
  | zero => rfl
  | succ n ih => simp [splitLE, ih]

/-! ### The bus: it changes devices, and a write adds to `out`; the entries of the list stay. -/

/-- The list with one device replaced by one of the same entry has the same entries. -/
theorem entries_set {ds : List Device} {k : Nat} {d e : Device} (hd : ds[k]? = some d) (he : e.entry = d.entry) :
    (ds.set k e).map Device.entry = ds.map Device.entry := by
  obtain ⟨hk, rfl⟩ := List.getElem?_eq_some_iff.mp hd
  apply List.ext_getElem (by simp)
  intro i h1 h2
  by_cases hi : k = i
  · subst hi; simp [he]
  · simp [List.getElem_set_ne hi]

/-- What busRead can do: a new list of devices with the old entries, all else as it was. -/
theorem busRead_frame (n : Width) (a : Word) (s : State) :
    ∃ ds, (busRead n a s).2 = { s with devices := ds } ∧ ds.map Device.entry = s.devices.map Device.entry ∧
      ((∀ d ∈ s.devices, d.wf = true) → ∀ d ∈ ds, d.wf = true) := by
  unfold busRead
  split
  · exact ⟨s.devices, rfl, rfl, id⟩
  · split
    · exact ⟨s.devices, rfl, rfl, id⟩
    · rename_i d hd
      obtain ⟨he, hw⟩ := readSeq_keeps n.bytes (a - d.base) d
      refine ⟨_, rfl, entries_set hd he, fun h e hm => ?_⟩
      rcases List.mem_or_eq_of_mem_set hm with hm | rfl
      · exact h e hm
      · exact hw (h d (List.mem_of_getElem? hd))

/-- What busWrite can do: a new list of devices with the old entries, and bytes added to `out`. -/
theorem busWrite_frame (n : Width) (a v : Word) (s : State) :
    ∃ ds emitted, busWrite n a v s = { s with devices := ds, out := s.out ++ emitted } ∧
      ds.map Device.entry = s.devices.map Device.entry ∧
      ((∀ d ∈ s.devices, d.wf = true) → ∀ d ∈ ds, d.wf = true) := by
  unfold busWrite
  split
  · exact ⟨s.devices, [], by simp, rfl, id⟩
  · split
    · exact ⟨s.devices, [], by simp, rfl, id⟩
    · rename_i d hd
      obtain ⟨he, hw⟩ := writeSeq_keeps (splitLE n.bytes v) (a - d.base) d
      refine ⟨_, _, rfl, entries_set hd he, fun h e hm => ?_⟩
      rcases List.mem_or_eq_of_mem_set hm with hm | rfl
      · exact h e hm
      · exact hw (h d (List.mem_of_getElem? hd))

/-- What a read hook can do. -/
theorem hookRead_frame (n : Width) (a : Word) (s : State) :
    ∃ ds, (hookRead n a s).2 = { s with devices := ds } ∧ ds.map Device.entry = s.devices.map Device.entry ∧
      ((∀ d ∈ s.devices, d.wf = true) → ∀ d ∈ ds, d.wf = true) := by
  unfold hookRead
  split
  · exact busRead_frame n a s
  · exact ⟨s.devices, rfl, rfl, id⟩

/-- What a write hook can do. -/
theorem hookWrite_frame (n : Width) (a v : Word) (s : State) :
    ∃ ds emitted, hookWrite n a v s = { s with devices := ds, out := s.out ++ emitted } ∧
      ds.map Device.entry = s.devices.map Device.entry ∧
      ((∀ d ∈ s.devices, d.wf = true) → ∀ d ∈ ds, d.wf = true) := by
  unfold hookWrite
  split
  · exact busWrite_frame n a v s
  · exact ⟨s.devices, [], by simp, rfl, id⟩

/-! ### The router -/

/-- What a router read can do: refuse by its check, or read RAM and change nothing, or read through the hook. -/
theorem memRead_cases (n : Width) (a : Word) (s : State) :
    (∃ f, checkAccess s.map n a = some f ∧ memRead n a s = .error f) ∨
      (checkAccess s.map n a = none ∧ isRAMAddress s.map a = true ∧ memRead n a s = .ok (ramRead n a s, s)) ∨
      (checkAccess s.map n a = none ∧ isRAMAddress s.map a = false ∧ memRead n a s = .ok (hookRead n a s)) := by
  unfold memRead
  cases h : checkAccess s.map n a with
  | some f => exact .inl ⟨f, rfl, rfl⟩
  | none => cases hr : isRAMAddress s.map a <;> simp

/-- A router read that answers changes only devices, and keeps their entries. -/
theorem memRead_ok_frame {n : Width} {a v : Word} {s t : State} (h : memRead n a s = .ok (v, t)) :
    ∃ ds, t = { s with devices := ds } ∧ ds.map Device.entry = s.devices.map Device.entry ∧
      ((∀ d ∈ s.devices, d.wf = true) → ∀ d ∈ ds, d.wf = true) := by
  rcases memRead_cases n a s with ⟨f, _, hf⟩ | ⟨_, _, hf⟩ | ⟨_, _, hf⟩
  · rw [hf] at h; cases h
  · rw [hf] at h; cases h; exact ⟨s.devices, rfl, rfl, id⟩
  · rw [hf] at h
    have : (hookRead n a s).2 = t := by simpa using congrArg Prod.snd (Except.ok.inj h)
    exact this ▸ hookRead_frame n a s

/-- What a router write can do: refuse by its check, or store to RAM, or write through the hook. -/
theorem memWrite_cases (n : Width) (a v : Word) (s : State) :
    (∃ f, checkAccess s.map n a = some f ∧ memWrite n a v s = .error f) ∨
      (checkAccess s.map n a = none ∧ isRAMAddress s.map a = true ∧ memWrite n a v s = .ok (ramWrite n a v s)) ∨
      (checkAccess s.map n a = none ∧ isRAMAddress s.map a = false ∧ memWrite n a v s = .ok (hookWrite n a v s)) := by
  unfold memWrite
  cases h : checkAccess s.map n a with
  | some f => exact .inl ⟨f, rfl, rfl⟩
  | none => cases hr : isRAMAddress s.map a <;> simp

/-! ### Invariance of the shared operations -/

/-- An aligned RAM access lies in the RAM zone whole (20_memory.md R49). -/
theorem ram_range {m : MemoryMap} (hm : m.wf = true) {n : Width} {a : Word} (hr : isRAMAddress m a = true)
    (ha : a.toNat % n.bytes = 0) : a.toNat + n.bytes ≤ ramEnd m + 1 := by
  obtain ⟨_, h1, _, _, h4, h5⟩ := (mapWf_iff m).mp hm
  obtain ⟨_, h⟩ := (isRAMAddress_iff m a).mp hr
  unfold ramEnd at h ⊢
  cases n <;> simp only [Width.bytes] at ha ⊢ <;> omega

/-- Changing only devices and `out`, with the entries and well-formedness kept, keeps the invariant. -/
theorem inv_of_devices {s : State} (hs : s.Inv) (ds : List Device) (emitted : List Byte)
    (hw : ∀ d ∈ ds, d.wf = true) : State.Inv { s with devices := ds, out := emitted } :=
  ⟨hs.mapWf, hs.ramWf, hs.ramInZone, hw, hs.runningNoFault, hs.startedByRun⟩

/-- Writing bytes inside the RAM zone keeps the invariant. -/
theorem inv_of_ramBytes {s : State} (hs : s.Inv) (a : Nat) (vs : List Byte)
    (h : ∀ k, a ≤ k → k < a + vs.length → s.map.ramBase.toNat ≤ k ∧ k ≤ ramEnd s.map) :
    State.Inv { s with ram := s.ram.writeBytes a vs } :=
  ⟨hs.mapWf, wf_writeBytes a vs hs.ramWf,
    fun c hc => (mem_writeBytes hc).elim (hs.ramInZone c) fun hk => h c.1 hk.1 hk.2,
    hs.devicesWf, hs.runningNoFault, hs.startedByRun⟩

theorem inv_memRead {n : Width} {a v : Word} {s t : State} (hs : s.Inv) (h : memRead n a s = .ok (v, t)) : t.Inv := by
  obtain ⟨ds, rfl, _, hw⟩ := memRead_ok_frame h
  exact inv_of_devices hs ds s.out (hw hs.devicesWf)

theorem inv_memWrite {n : Width} {a v : Word} {s t : State} (hs : s.Inv) (h : memWrite n a v s = .ok t) : t.Inv := by
  rcases memWrite_cases n a v s with ⟨f, _, hf⟩ | ⟨hc, hr, hf⟩ | ⟨_, _, hf⟩
  · rw [hf] at h; cases h
  · rw [hf] at h; cases h
    refine inv_of_ramBytes hs _ _ fun k h1 h2 => ?_
    have := ram_range hs.mapWf hr (checkAccess_none.mp hc).2
    have hb := ((isRAMAddress_iff s.map a).mp hr).1
    rw [length_splitLE] at h2
    omega
  · rw [hf] at h; cases h
    obtain ⟨ds, emitted, e, _, hw⟩ := hookWrite_frame n a v s
    rw [e]
    exact inv_of_devices hs ds _ (hw hs.devicesWf)

theorem inv_takeFault {s : State} (f : Fault) (hs : s.Inv) (hr : s.runCalled = true) : (takeFault f s).Inv :=
  ⟨hs.mapWf, hs.ramWf, hs.ramInZone, hs.devicesWf, by simp, fun _ => hr⟩

theorem inv_completeStep {s : State} (hs : s.Inv) : (completeStep s).Inv :=
  ⟨hs.mapWf, hs.ramWf, hs.ramInZone,
    fun d hd => by
      obtain ⟨e, he, rfl⟩ := List.mem_map.mp hd
      exact wf_update e (hs.devicesWf e he),
    hs.runningNoFault, hs.startedByRun⟩

/-- Registers and the pc are free: the invariant does not speak of them. -/
theorem inv_setReg {s : State} (r : Reg) (v : Word) (hs : s.Inv) : (s.setReg r v).Inv :=
  ⟨hs.mapWf, hs.ramWf, hs.ramInZone, hs.devicesWf, hs.runningNoFault, hs.startedByRun⟩

theorem inv_setPc {s : State} (t : Word) (hs : s.Inv) : (s.setPc t).Inv :=
  ⟨hs.mapWf, hs.ramWf, hs.ramInZone, hs.devicesWf, hs.runningNoFault, hs.startedByRun⟩

end Sys2Proof.Machine
end

