-- ==== Sys2Proof/Laws/Bytes.lean ====
section
/-! SUPPORT. The byte order, and the router's accesses of RAM and of the device zone, as equations to rewrite with. -/

namespace Sys2Proof.Machine

/-! ### Composition and splitting -/

theorem composeLE_one (a : Byte) : composeLE [a] = a.setWidth 32 := by simp [composeLE]

theorem composeLE_two (a b : Byte) : composeLE [a, b] = (b ++ a).setWidth 32 := by
  apply BitVec.eq_of_getLsbD_eq
  intro i hi
  simp only [composeLE, BitVec.getLsbD_or, BitVec.getLsbD_shiftLeft, BitVec.getLsbD_setWidth, BitVec.getLsbD_append]
  have above : ∀ j, 8 ≤ j → a.getLsbD j = false := fun j hj => BitVec.getLsbD_of_ge _ _ hj
  by_cases h8 : i < 8
  · simp [h8, hi]
  · simp [h8, hi, above i (by omega), show i - 8 < 32 by omega]

theorem composeLE_four (a b c d : Byte) : composeLE [a, b, c, d] = d ++ c ++ b ++ a := by
  apply BitVec.eq_of_getLsbD_eq
  intro i hi
  simp only [composeLE, BitVec.getLsbD_or, BitVec.getLsbD_shiftLeft, BitVec.getLsbD_setWidth, BitVec.getLsbD_append,
    BitVec.shiftLeft_or_distrib]
  have above : ∀ (x : Byte) j, 8 ≤ j → x.getLsbD j = false := fun x j hj => BitVec.getLsbD_of_ge _ _ hj
  by_cases h8 : i < 8
  · simp [h8, hi]
  by_cases h16 : i < 16
  · simp [h8, hi, show i - 8 < 8 by omega, above a i (by omega), show i - 8 < 32 by omega]
  by_cases h24 : i < 24
  · simp [h8, hi, show ¬ i - 8 < 8 by omega, show i - 8 - 8 < 8 by omega, above a i (by omega),
      show i - 8 < 32 by omega, above b (i - 8) (by omega), show i - 8 - 8 < 32 by omega]
  · simp [h8, hi, show ¬ i - 8 < 8 by omega, show ¬ i - 8 - 8 < 8 by omega, above a i (by omega),
      show i - 8 < 32 by omega, above b (i - 8) (by omega), show i - 8 - 8 < 32 by omega,
      above c (i - 8 - 8) (by omega), show i - 8 - 8 - 8 < 32 by omega]

/-- Byte j of a split word is bits 8j+7 to 8j. -/
theorem getD_splitLE (n : Nat) (v : Word) (j : Nat) (h : j < n) : (splitLE n v).getD j 0 = v.extractLsb' (8 * j) 8 := by
  induction n generalizing v j with
  | zero => omega
  | succ n ih =>
    cases j with
    | zero =>
      simp only [splitLE, List.getD_cons_zero, Nat.mul_zero]
      apply BitVec.eq_of_getLsbD_eq
      intro i hi
      simp [hi]
    | succ j =>
      simp only [splitLE, List.getD_cons_succ]
      rw [ih _ _ (by omega)]
      apply BitVec.eq_of_getLsbD_eq
      intro i hi
      simp only [BitVec.getLsbD_extractLsb', hi, decide_true, Bool.true_and, BitVec.getLsbD_ushiftRight]
      congr 1
      omega

/-! ### RAM -/

theorem ramRead_w8 (a : Word) (s : State) : ramRead .w8 a s = (s.ram.read a.toNat).setWidth 32 := by
  simp only [ramRead, Width.bytes, Memory.readBytes, composeLE_one]

theorem ramRead_w16 (a : Word) (s : State) :
    ramRead .w16 a s = (s.ram.read (a.toNat + 1) ++ s.ram.read a.toNat).setWidth 32 := by
  simp only [ramRead, Width.bytes, Memory.readBytes, composeLE_two]

theorem ramRead_w32 (a : Word) (s : State) :
    ramRead .w32 a s =
      s.ram.read (a.toNat + 3) ++ s.ram.read (a.toNat + 2) ++ s.ram.read (a.toNat + 1) ++ s.ram.read a.toNat := by
  simp only [ramRead, Width.bytes, Memory.readBytes, composeLE_four]

/-- The bytes a RAM write stores. -/
theorem read_ramWrite_inside {n : Width} {a v : Word} {s : State} (hw : Memory.wf s.ram = true) {j : Nat}
    (hj : j < n.bytes) : (ramWrite n a v s).ram.read (a.toNat + j) = v.extractLsb' (8 * j) 8 := by
  rw [ramWrite_ram, read_writeBytes _ _ _ hw, length_splitLE, if_pos (by omega), Nat.add_sub_cancel_left,
    getD_splitLE _ _ _ hj]

/-- The bytes it leaves. -/
theorem read_ramWrite_outside {n : Width} {a v : Word} {s : State} (hw : Memory.wf s.ram = true) {k : Nat}
    (hk : k < a.toNat ∨ a.toNat + n.bytes ≤ k) : (ramWrite n a v s).ram.read k = s.ram.read k := by
  rw [ramWrite_ram, read_writeBytes _ _ _ hw, length_splitLE, if_neg (by omega)]

/-! ### Accesses the router lets through -/

theorem valid_of_ram {m : MemoryMap} {a : Word} (h : isRAMAddress m a = true) : isValidAddress m a = true := by
  simp [isValidAddress, h]

theorem valid_of_peripheral {m : MemoryMap} {a : Word} (h : isPeripheralAddress m a = true) :
    isValidAddress m a = true := by
  simp [isValidAddress, h]

theorem memRead_ram {n : Width} {a : Word} {s : State} (h : isRAMAddress s.map a = true)
    (ha : a.toNat % n.bytes = 0) : memRead n a s = .ok (ramRead n a s, s) := by
  simp [memRead, checkAccess_none.mpr ⟨valid_of_ram h, ha⟩, h]

theorem memWrite_ram {n : Width} {a v : Word} {s : State} (h : isRAMAddress s.map a = true)
    (ha : a.toNat % n.bytes = 0) : memWrite n a v s = .ok (ramWrite n a v s) := by
  simp [memWrite, checkAccess_none.mpr ⟨valid_of_ram h, ha⟩, h]

theorem memRead_device {n : Width} {a : Word} {s : State} (hc : s.Composed) (hr : isRAMAddress s.map a = false)
    (h : isPeripheralAddress s.map a = true) (ha : a.toNat % n.bytes = 0) : memRead n a s = .ok (busRead n a s) := by
  have hh : s.hooks.readHook n = .busCoordinator := by rw [hc]; cases n <;> rfl
  simp [memRead, checkAccess_none.mpr ⟨valid_of_peripheral h, ha⟩, hr, hookRead, hh]

theorem memWrite_device {n : Width} {a v : Word} {s : State} (hc : s.Composed) (hr : isRAMAddress s.map a = false)
    (h : isPeripheralAddress s.map a = true) (ha : a.toNat % n.bytes = 0) :
    memWrite n a v s = .ok (busWrite n a v s) := by
  have hh : s.hooks.writeHook n = .busCoordinator := by rw [hc]; cases n <;> rfl
  simp [memWrite, checkAccess_none.mpr ⟨valid_of_peripheral h, ha⟩, hr, hookWrite, hh]

/-- A fetch that answers had a valid pc that is a multiple of 4. -/
theorem pc_of_fetch {s t : State} {w : Word} (h : fetch s = .ok (w, t)) :
    isValidAddress s.map s.pc = true ∧ s.pc.toNat % 4 = 0 := by
  rcases memRead_cases .w32 s.pc s with ⟨f, _, hf⟩ | ⟨hc, _, _⟩ | ⟨hc, _, _⟩
  · rw [fetch, hf] at h; cases h
  · exact checkAccess_none.mp hc
  · exact checkAccess_none.mp hc

/-! ### Bulk operations -/

/-- Under the constraints of R40 the bulk check is a check of the two ends. -/
theorem bulkInRAM_iff {m : MemoryMap} {a : Word} {len : Nat} (hm : m.wf = true) (hlen : 0 < len) :
    bulkInRAM m a len = true ↔ isRAMAddress m a = true ∧ a.toNat + len - 1 ≤ ramEnd m := by
  obtain ⟨_, h1, h2, _⟩ := (mapWf_iff m).mp hm
  simp only [bulkInRAM, Bool.and_eq_true, decide_eq_true_eq]
  constructor
  · rintro ⟨⟨h, hr⟩, hl⟩
    have := (isRAMAddress_iff _ _).mp hl
    rw [BitVec.toNat_ofNat, Nat.mod_eq_of_lt h] at this
    exact ⟨hr, this.2⟩
  · rintro ⟨hr, hl⟩
    have hb := (isRAMAddress_iff _ _).mp hr
    have h32 : a.toNat + len - 1 < 2 ^ 32 := by unfold ramEnd at hl; omega
    refine ⟨⟨h32, hr⟩, (isRAMAddress_iff _ _).mpr ?_⟩
    rw [BitVec.toNat_ofNat, Nat.mod_eq_of_lt h32]
    omega

/-- A bulk write that answers leaves the state or writes its bytes inside RAM. -/
theorem writeBytes_ok {a : Word} {data : List Byte} {s t : State} (hm : s.map.wf = true)
    (h : writeBytes a data s = .ok t) :
    (data = [] ∧ t = s) ∨
      (data ≠ [] ∧ isRAMAddress s.map a = true ∧ a.toNat + data.length - 1 ≤ ramEnd s.map ∧
        t = { s with ram := s.ram.writeBytes a.toNat data }) := by
  by_cases hd : data = []
  · exact .inl ⟨hd, by simpa [writeBytes, hd] using h.symm⟩
  · cases hb : bulkInRAM s.map a data.length
    · simp [writeBytes, hd, hb] at h
    · obtain ⟨hr, hl⟩ := (bulkInRAM_iff hm (List.length_pos_iff.mpr hd)).mp hb
      exact .inr ⟨hd, hr, hl, by simpa [writeBytes, hd, hb] using h.symm⟩

theorem inv_writeBytes {a : Word} {data : List Byte} {s t : State} (hs : s.Inv)
    (h : writeBytes a data s = .ok t) : t.Inv := by
  rcases writeBytes_ok hs.mapWf h with ⟨_, rfl⟩ | ⟨_, hr, hl, rfl⟩
  · exact hs
  · have hb := ((isRAMAddress_iff _ _).mp hr).1
    exact inv_of_ramBytes hs _ _ fun k h1 h2 => ⟨by omega, by omega⟩

end Sys2Proof.Machine
end

