-- ==== Sys2Proof/Laws/PerInstr.lean ====
section
/-! SUPPORT. Statements for every instruction as syntax, one lemma for each constructor. -/

namespace Sys2Proof.Laws

/-- The word the encoder writes has w[31:24] = 0 and the opcode of R87 in its low nibble (spec/30_encoding.md R93). -/
def OpcodeInLowNibble.Statement (i : Instr) : Prop :=
  (encode i).extractLsb' 0 4 = i.opcode ∧ (encode i).extractLsb' 24 8 = 0 ∧ i.opcode.toNat < 8

/-- Bit `i` of the packing formula, field by field. -/
theorem getLsbD_packFields (f : Fields) (i : Nat) (h : i < 32) :
    (packFields f).getLsbD i =
      if i < 4 then f.op.getLsbD i else if i < 8 then f.a.getLsbD (i - 4) else if i < 12 then f.b.getLsbD (i - 8)
      else if i < 16 then f.c.getLsbD (i - 12) else if i < 24 then f.imm8.getLsbD (i - 16) else false := by
  simp only [packFields, BitVec.getLsbD_or, BitVec.getLsbD_shiftLeft, BitVec.getLsbD_setWidth]
  have hop : ∀ j, 4 ≤ j → f.op.getLsbD j = false := fun j hj => BitVec.getLsbD_of_ge _ _ hj
  have ha : ∀ j, 4 ≤ j → f.a.getLsbD j = false := fun j hj => BitVec.getLsbD_of_ge _ _ hj
  have hb : ∀ j, 4 ≤ j → f.b.getLsbD j = false := fun j hj => BitVec.getLsbD_of_ge _ _ hj
  have hc : ∀ j, 4 ≤ j → f.c.getLsbD j = false := fun j hj => BitVec.getLsbD_of_ge _ _ hj
  have hi : ∀ j, 8 ≤ j → f.imm8.getLsbD j = false := fun j hj => BitVec.getLsbD_of_ge _ _ hj
  by_cases h4 : i < 4
  · simp [h4, show i < 8 by omega, show i < 12 by omega, show i < 16 by omega, show i < 32 by omega]
  by_cases h8 : i < 8
  · simp [h4, h8, hop i (by omega), show i < 12 by omega, show i < 16 by omega, show i < 32 by omega,
      show i - 4 < 32 by omega]
  by_cases h12 : i < 12
  · simp [h4, h8, h12, hop i (by omega), ha (i - 4) (by omega), show i < 16 by omega, show i < 32 by omega,
      show i - 8 < 32 by omega]
  by_cases h16 : i < 16
  · simp [h4, h8, h12, h16, hop i (by omega), ha (i - 4) (by omega), hb (i - 8) (by omega), show i < 32 by omega,
      show i - 12 < 32 by omega]
  by_cases h24 : i < 24
  · simp [h4, h8, h12, h16, h24, hop i (by omega), ha (i - 4) (by omega), hb (i - 8) (by omega),
      hc (i - 12) (by omega), show i < 32 by omega, show i - 16 < 32 by omega]
  · simp [h4, h8, h12, h16, h24, hop i (by omega), ha (i - 4) (by omega), hb (i - 8) (by omega),
      hc (i - 12) (by omega), hi (i - 16) (by omega)]

/-- The low nibble and the top byte of the packing formula. -/
theorem packFields_low_top (f : Fields) :
    (packFields f).extractLsb' 0 4 = f.op ∧ (packFields f).extractLsb' 24 8 = 0 := by
  constructor
  · apply BitVec.eq_of_getLsbD_eq
    intro i h
    rw [BitVec.getLsbD_extractLsb', getLsbD_packFields f (0 + i) (by omega)]
    simp [h]
  · apply BitVec.eq_of_getLsbD_eq
    intro i h
    rw [BitVec.getLsbD_extractLsb', getLsbD_packFields f (24 + i) (by omega)]
    simp [show ¬ 24 + i < 4 by omega, show ¬ 24 + i < 8 by omega, show ¬ 24 + i < 12 by omega,
      show ¬ 24 + i < 16 by omega]

/-- The statement, for an instruction whose fields hold its opcode and whose opcode is one of the eight. -/
theorem opcodeInLowNibble_of {i : Instr} (h : i.fields.op = i.opcode) (ho : i.opcode.toNat < 8) :
    OpcodeInLowNibble.Statement i := by
  obtain ⟨hl, ht⟩ := packFields_low_top i.fields
  exact ⟨hl.trans h, ht, ho⟩

theorem OpcodeInLowNibble.load (a b : Reg) (imm8 : Byte) : OpcodeInLowNibble.Statement (.load a b imm8) :=
  opcodeInLowNibble_of rfl (by simp [Instr.opcode])

theorem OpcodeInLowNibble.store (a b : Reg) (imm8 : Byte) : OpcodeInLowNibble.Statement (.store a b imm8) :=
  opcodeInLowNibble_of rfl (by simp [Instr.opcode])

theorem OpcodeInLowNibble.add (a b c : Reg) : OpcodeInLowNibble.Statement (.add a b c) :=
  opcodeInLowNibble_of rfl (by simp [Instr.opcode])

theorem OpcodeInLowNibble.sub (a b c : Reg) : OpcodeInLowNibble.Statement (.sub a b c) :=
  opcodeInLowNibble_of rfl (by simp [Instr.opcode])

theorem OpcodeInLowNibble.mov (a b : Reg) : OpcodeInLowNibble.Statement (.mov a b) :=
  opcodeInLowNibble_of rfl (by simp [Instr.opcode])

theorem OpcodeInLowNibble.jump (a : Reg) : OpcodeInLowNibble.Statement (.jump a) :=
  opcodeInLowNibble_of rfl (by simp [Instr.opcode])

theorem OpcodeInLowNibble.branchEq (a b : Reg) (imm8 : Byte) : OpcodeInLowNibble.Statement (.branchEq a b imm8) :=
  opcodeInLowNibble_of rfl (by simp [Instr.opcode])

theorem OpcodeInLowNibble.nop : OpcodeInLowNibble.Statement .nop :=
  opcodeInLowNibble_of rfl (by simp [Instr.opcode])

end Sys2Proof.Laws
end

