-- ==== Sys2Proof/Laws/Step.lean ====
section
/-! SUPPORT. What an instruction can do, and what a step can do: the two case lemmas that proofs about steps cite. -/

namespace Sys2Proof.Machine

/-- `t` follows from `s` by an operation's own effects: the Run Loop's state and the parameters are as they were, `out`
has only grown, the devices are the same ones, and the invariant is kept. -/
structure Follows (s t : State) : Prop where
  running : t.running = s.running
  fault : t.fault = s.fault
  cycles : t.cycles = s.cycles
  map : t.map = s.map
  hooks : t.hooks = s.hooks
  runCalled : t.runCalled = s.runCalled
  out : ∃ emitted, t.out = s.out ++ emitted
  entries : t.devices.map Device.entry = s.devices.map Device.entry
  inv : s.Inv → t.Inv

theorem Follows.refl (s : State) : Follows s s := ⟨rfl, rfl, rfl, rfl, rfl, rfl, ⟨[], by simp⟩, rfl, id⟩

theorem Follows.trans {s t u : State} (h : Follows s t) (k : Follows t u) : Follows s u where
  running := k.running.trans h.running
  fault := k.fault.trans h.fault
  cycles := k.cycles.trans h.cycles
  map := k.map.trans h.map
  hooks := k.hooks.trans h.hooks
  runCalled := k.runCalled.trans h.runCalled
  out := by
    obtain ⟨e, he⟩ := h.out
    obtain ⟨f, hf⟩ := k.out
    exact ⟨e ++ f, by rw [hf, he, List.append_assoc]⟩
  entries := k.entries.trans h.entries
  inv := k.inv ∘ h.inv

theorem follows_setReg (s : State) (r : Reg) (v : Word) : Follows s (s.setReg r v) :=
  ⟨rfl, rfl, rfl, rfl, rfl, rfl, ⟨[], by simp⟩, rfl, inv_setReg r v⟩

theorem follows_setPc (s : State) (p : Word) : Follows s (s.setPc p) :=
  ⟨rfl, rfl, rfl, rfl, rfl, rfl, ⟨[], by simp⟩, rfl, inv_setPc p⟩

theorem follows_advance (s : State) : Follows s s.advance := follows_setPc s _

theorem follows_memRead {n : Width} {a v : Word} {s t : State} (h : memRead n a s = .ok (v, t)) : Follows s t := by
  obtain ⟨ds, rfl, he, _⟩ := memRead_ok_frame h
  exact ⟨rfl, rfl, rfl, rfl, rfl, rfl, ⟨[], by simp⟩, he, fun hs => inv_memRead hs h⟩

theorem follows_memWrite {n : Width} {a v : Word} {s t : State} (h : memWrite n a v s = .ok t) : Follows s t := by
  have hi : s.Inv → t.Inv := fun hs => inv_memWrite hs h
  rcases memWrite_cases n a v s with ⟨f, _, hf⟩ | ⟨_, _, hf⟩ | ⟨_, _, hf⟩
  · rw [hf] at h; cases h
  · rw [hf] at h; cases h
    exact ⟨rfl, rfl, rfl, rfl, rfl, rfl, ⟨[], by simp⟩, rfl, hi⟩
  · rw [hf] at h; cases h
    obtain ⟨ds, emitted, e, he, _⟩ := hookWrite_frame n a v s
    rw [e] at hi ⊢
    exact ⟨rfl, rfl, rfl, rfl, rfl, rfl, ⟨emitted, rfl⟩, he, hi⟩

/-- A router read that refuses does so by its check. -/
theorem memRead_error {n : Width} {a : Word} {s : State} {f : Fault} (h : memRead n a s = .error f) :
    checkAccess s.map n a = some f := by
  rcases memRead_cases n a s with ⟨g, hc, hg⟩ | ⟨_, _, hg⟩ | ⟨_, _, hg⟩ <;> rw [hg] at h <;> cases h
  exact hc

/-- A router write that refuses does so by its check. -/
theorem memWrite_error {n : Width} {a v : Word} {s : State} {f : Fault} (h : memWrite n a v s = .error f) :
    checkAccess s.map n a = some f := by
  rcases memWrite_cases n a v s with ⟨g, hc, hg⟩ | ⟨_, _, hg⟩ | ⟨_, _, hg⟩ <;> rw [hg] at h <;> cases h
  exact hc

/-- What an operation can do: raise a fault of the router's check with everything else as it was (LOAD, STORE), or go to
a next state that follows from its own. -/
theorem exec_cases (i : Instr) (s : State) :
    (∃ n a f, checkAccess s.map n a = some f ∧ exec i s = .next (takeFault f s)) ∨
      ∃ t, exec i s = .next t ∧ Follows s t := by
  cases i with
  | load a b imm8 =>
    cases h : memRead .w32 (effectiveAddress b imm8 s) s with
    | error f => exact .inl ⟨_, _, f, memRead_error h, by simp [exec, execLoad, h, raiseFault]⟩
    | ok p =>
      obtain ⟨v, t⟩ := p
      exact .inr ⟨(t.setReg a v).advance, by simp [exec, execLoad, h],
        (follows_memRead h).trans ((follows_setReg t a v).trans (follows_advance _))⟩
  | store a b imm8 =>
    cases h : memWrite .w32 (effectiveAddress b imm8 s) (s.getReg a) s with
    | error f => exact .inl ⟨_, _, f, memWrite_error h, by simp [exec, execStore, h, raiseFault]⟩
    | ok t =>
      exact .inr ⟨t.advance, by simp [exec, execStore, h], (follows_memWrite h).trans (follows_advance t)⟩
  | add a b c => exact .inr ⟨_, rfl, (follows_setReg s a _).trans (follows_advance _)⟩
  | sub a b c => exact .inr ⟨_, rfl, (follows_setReg s a _).trans (follows_advance _)⟩
  | mov a b => exact .inr ⟨_, rfl, (follows_setReg s a _).trans (follows_advance _)⟩
  | jump a => exact .inr ⟨_, rfl, follows_setPc s _⟩
  | branchEq a b imm8 =>
    refine .inr ?_
    cases h : regsEqual a b s
    · exact ⟨s.advance, by simp [exec, execBranchEq, h], follows_advance s⟩
    · exact ⟨_, by simp [exec, execBranchEq, h]; rfl, (follows_setPc s _).trans (follows_advance _)⟩
  | nop => exact .inr ⟨_, rfl, follows_advance s⟩

/-- What a step can do: nothing while not running; take a fault of the fetch, of dispatch or of the operation; or
complete. -/
theorem step_cases (s : State) :
    (s.running = false ∧ step s = .next s) ∨
      (s.running = true ∧ ∃ f, fetch s = .error f ∧ step s = .next (takeFault f s)) ∨
      (s.running = true ∧ ∃ w t e, fetch s = .ok (w, t) ∧ decodeWord w = .error e ∧
        step s = .next (takeFault (decodeFault e) t)) ∨
      (s.running = true ∧ ∃ w t i n a f, fetch s = .ok (w, t) ∧ decodeWord w = .ok i ∧
        checkAccess t.map n a = some f ∧ exec i t = .next (takeFault f t) ∧ step s = .next (takeFault f t)) ∨
      (s.running = true ∧ ∃ w t i u, fetch s = .ok (w, t) ∧ decodeWord w = .ok i ∧ exec i t = .next u ∧
        u.running = true ∧ step s = .next (completeStep u)) := by
  by_cases hr : s.running = true
  · refine .inr ?_
    unfold step
    rw [if_pos hr]
    cases hf : fetch s with
    | error f => exact .inl ⟨hr, f, rfl, rfl⟩
    | ok p =>
      refine .inr ?_
      obtain ⟨w, t⟩ := p
      cases hd : decodeWord w with
      | error e => exact .inl ⟨hr, w, t, e, rfl, hd, by simp [hd, raiseFault]⟩
      | ok i =>
        refine .inr ?_
        have htr : t.running = true := (follows_memRead hf).running.trans hr
        rcases exec_cases i t with ⟨n, a, f, hc, he⟩ | ⟨u, he, hu⟩
        · exact .inl ⟨hr, w, t, i, n, a, f, rfl, hd, hc, he, by simp [hd, he, endStep]⟩
        · have hur : u.running = true := hu.running.trans htr
          exact .inr ⟨hr, w, t, i, u, rfl, hd, he, hur, by simp [hd, he, endStep, hur]⟩
  · exact .inl ⟨by simpa using hr, by simp [step, hr]⟩

end Sys2Proof.Machine
end

