-- ==== Sys2Proof/Tests/Slice0.lean ====
section
/-! SUPPORT. Tests: ill-formed terms the checks refuse; words written out from the spec's encodings; one step of each instruction,
with the result spec/95_test_vectors.md states (computed there by hand from the rules); and for every statement with
hypotheses a state and operands that meet them. -/

open Sys2Proof Sys2Proof.Machine

namespace Sys2Proof.Tests

/-! ### The checks of WellFormed.lean refuse -/

theorem test_wf_refuses_register_sixteen : (AsmLine.mov 16 0).wf = false ∧ (AsmLine.jump 16).wf = false := by decide
theorem test_wf_refuses_offset_out_of_range :
    (AsmLine.load 0 0 256).wf = false ∧ (AsmLine.store 0 0 (-1)).wf = false := by decide
theorem test_wf_refuses_branch_out_of_range :
    (AsmLine.branchEq 0 0 128).wf = false ∧ (AsmLine.branchEq 0 0 (-129)).wf = false := by decide
theorem test_wf_accepts_extremes :
    (AsmLine.load 15 15 255).wf = true ∧ (AsmLine.branchEq 15 15 (-128)).wf = true := by decide

theorem test_wf_refuses_zones_out_of_order : MemoryMap.zonesOrdered ⟨0x100, 4, 0x104, 0⟩ = false := by decide
theorem test_wf_refuses_empty_ram : MemoryMap.ramNonempty ⟨0x100, 0, 0, 0⟩ = false := by decide
theorem test_wf_refuses_wrapping_ram : MemoryMap.ramNoWrap ⟨0xFFFFFFFC, 8, 0, 0⟩ = false := by decide
theorem test_wf_refuses_unaligned_map :
    MemoryMap.aligned ⟨0x102, 4, 0, 0⟩ = false ∧ MemoryMap.aligned ⟨0x100, 6, 0, 0⟩ = false ∧
      MemoryMap.aligned ⟨0x100, 4, 1, 0⟩ = false := by decide
theorem test_wf_refuses_each_bad_map :
    MemoryMap.wf ⟨0x100, 4, 0x104, 0⟩ = false ∧ MemoryMap.wf ⟨0x100, 0, 0, 0⟩ = false ∧
      MemoryMap.wf ⟨0xFFFFFFFC, 8, 0, 0⟩ = false ∧ MemoryMap.wf ⟨0x102, 4, 0, 0⟩ = false := by decide
theorem test_wf_refuses_device_past_the_end : DeviceEntry.wf ⟨0xFFFFFFF0, 0x20, .fixture⟩ = false := by decide
theorem test_wf_refuses_small_named_devices :
    DeviceEntry.wf ⟨0, 0x0F, .serial 0⟩ = false ∧ DeviceEntry.wf ⟨0, 0x13, .network 0⟩ = false := by decide
theorem test_wf_accepts_ref : Config.ref.wf = true := by decide

/-! ### Decoding: words written out from the bit patterns of 41, 42 and 43 -/

/-- LOAD `xxxxxxxx iiiiiiii xxxx bbbb aaaa 0000` with A = 9, B = 6, imm8 = 0x85, the ignored bits set. -/
theorem test_decode_load : decodeWord 0b11111111_10000101_1111_0110_1001_0000 = .ok (.load 9 6 0x85) := by decide
/-- STORE `xxxxxxxx iiiiiiii xxxx bbbb aaaa 0001`. -/
theorem test_decode_store : decodeWord 0b10101010_01111111_0101_0010_1101_0001 = .ok (.store 13 2 0x7F) := by decide
/-- ADD `xxxxxxxx xxxxxxxx cccc bbbb aaaa 0010`. -/
theorem test_decode_add : decodeWord 0b11111111_11111111_1000_0100_0010_0010 = .ok (.add 2 4 8) := by decide
/-- SUB `xxxxxxxx xxxxxxxx cccc bbbb aaaa 0011`. -/
theorem test_decode_sub : decodeWord 0b00000000_00000001_0001_1110_0111_0011 = .ok (.sub 7 14 1) := by decide
/-- MOV `xxxxxxxx xxxxxxxx xxxx bbbb aaaa 0100`. -/
theorem test_decode_mov : decodeWord 0b00000000_00000000_1111_1011_0011_0100 = .ok (.mov 3 11) := by decide
/-- JUMP `xxxxxxxx xxxxxxxx xxxx xxxx aaaa 0101`. -/
theorem test_decode_jump : decodeWord 0b00000000_00000000_0000_1111_1100_0101 = .ok (.jump 12) := by decide
/-- BRANCH_EQ `xxxxxxxx iiiiiiii xxxx bbbb aaaa 0110`. -/
theorem test_decode_branchEq : decodeWord 0b00000000_11111101_0000_0100_0100_0110 = .ok (.branchEq 4 4 0xFD) := by decide
/-- NOP `xxxxxxxx xxxxxxxx xxxx xxxx xxxx 0111`. -/
theorem test_decode_nop : decodeWord 0b11111111_11111111_1111_1111_1111_0111 = .ok .nop := by decide
/-- The first byte of a window is the word's least significant (R79), and the host's reader lays words out so. -/
theorem test_decode_bytes_little_endian :
    decodeBytes [0x16, 0x02, 0x03, 0x00] = .ok (.branchEq 1 2 3) ∧ decodeTableWord 32 0x00030216 = some (.branchEq 1 2 3) ∧
      decodeBytes [0x07, 0x00] = .error .tooFewBytes ∧ decodeTableWord 32 8 = none := by decide

/-! ### One step -/

/-- Whether an outcome is a next state that meets a check. -/
def nextMeets (o : Host.Outcome State Fault Refusal) (check : State → Bool) : Bool :=
  match o with
  | .next t => check t
  | .fault _ => false
  | .refused _ => false

/-- REF (92_eei_decisions.md D26) right after reset, with registers preset and one word placed and run. -/
def ready (presets : List (Reg × Word)) (w : Nat) : State :=
  (presets.foldl (fun s p => s.setReg p.1 p.2) State.reset).withFetchWord 32 w

/-- The bytes of a fixture device. -/
def fixtureBytes (d : Device) : List Byte :=
  match d.state with
  | .fixture bytes _ => bytes
  | _ => []

/-- The update count of a fixture device. -/
def fixtureUpdates (d : Device) : Nat :=
  match d.state with
  | .fixture _ updates => updates
  | _ => 0

/-- The first device of a state. -/
def firstDevice (s : State) : Device := s.devices.headD (constructDevice ⟨0, 0, .fixture⟩)

/-- LD1. -/
theorem test_load_word :
    nextMeets (step (ramWrite .w32 0x00020110 0xDEADBEEF (ready [(2, 0x00020100)] 0x00100210)))
      (fun t => t.getReg 1 == 0xDEADBEEF && t.pc == 0x00020002 && t.cycles == 1) = true := by decide
/-- LD4. -/
theorem test_load_misaligned :
    nextMeets (step (ready [(1, 0x55), (2, 0x00020100)] 0x00020210))
      (fun t => t.fault == some ⟨.alignment, 0, 0x00020000, 0x00020102⟩ && t.getReg 1 == 0x55 && t.pc == 0x00020000 &&
        t.running == false && t.cycles == 0 && fixtureUpdates (firstDevice t) == 0) = true := by decide
/-- ST1. -/
theorem test_store_word :
    nextMeets (step (ready [(1, 0x11223344), (2, 0x00020200)] 0x00040211))
      (fun t => t.ram.readBytes 0x00020203 6 == [0, 0x44, 0x33, 0x22, 0x11, 0]) = true := by decide
/-- ST3. -/
theorem test_store_device :
    nextMeets (step (ready [(1, 0xA1B2C3D4), (2, 0x00010000)] 0x00080211))
      (fun t => (fixtureBytes (firstDevice t)).take 13 == [0, 0, 0, 0, 0, 0, 0, 0, 0xD4, 0xC3, 0xB2, 0xA1, 0] &&
        fixtureUpdates (firstDevice t) == 1) = true := by decide
/-- AD1. -/
theorem test_add_wraps :
    nextMeets (step (ready [(1, 0xFFFFFFFF), (2, 1)] 0x00002132)) (fun t => t.getReg 3 == 0 && t.pc == 0x00020002) = true := by
  decide
/-- AD4. -/
theorem test_add_ignores_unused_bits :
    nextMeets (step (ready [(10, 0x10), (9, 0x20)] 0xCD7F9A52)) (fun t => t.getReg 5 == 0x30) = true := by decide
/-- SB1. -/
theorem test_sub_wraps :
    nextMeets (step (ready [(1, 0), (2, 1)] 0x00002143)) (fun t => t.getReg 4 == 0xFFFFFFFF) = true := by decide
/-- SB4: the destination is the subtrahend. -/
theorem test_sub_reads_first :
    nextMeets (step (ready [(1, 3), (2, 10)] 0x00001213)) (fun t => t.getReg 1 == 7) = true := by decide
/-- MV1. -/
theorem test_mov_copies :
    nextMeets (step (ready [(6, 0x12345678)] 0x00000654)) (fun t => t.getReg 5 == 0x12345678) = true := by decide
/-- JP1. -/
theorem test_jump_without_advance :
    nextMeets (step (ready [(7, 0x00020040)] 0x00000075)) (fun t => t.pc == 0x00020040) = true := by decide
/-- BQ5. -/
theorem test_branch_backwards :
    nextMeets (step (ready [(1, 1), (2, 1)] 0x00800216)) (fun t => t.pc == 0x0001FF02) = true := by decide
/-- BQ9: all 32 bits are compared. -/
theorem test_branch_compares_every_bit :
    nextMeets (step (ready [(1, 0x80000000), (2, 0)] 0x00010216)) (fun t => t.pc == 0x00020002) = true := by decide
/-- NP2 and E10: NOP with every ignored bit set; the count and the update happen. -/
theorem test_nop_counts_and_updates :
    nextMeets (step (ready [] 0xFFFFFFF7))
      (fun t => t.pc == 0x00020002 && t.cycles == 1 && fixtureUpdates (firstDevice t) == 1) = true := by decide
/-- FD2. -/
theorem test_unknown_opcode :
    nextMeets (step (ready [] 0xFFFFFFFF)) (fun t => t.fault == some ⟨.unknownOpcode, 0, 0x00020000, 15⟩) = true := by decide
/-- FD7: zeroed RAM is LOAD r0, [r0 + 0]. -/
theorem test_zero_word :
    nextMeets (step (ready [] 0)) (fun t => t.fault == some ⟨.outOfRange, 0, 0x00020000, 0⟩) = true := by decide
/-- P8: the low byte comes out first. -/
theorem test_serial_prints :
    nextMeets (step (ready [(1, 0x48), (2, 0x00010100)] 0x00000211)) (fun t => t.out.head? == some 0x48) = true := by decide

/-! ### The host's calls, from section 2.2 and 2.8 -/

/-- V5, V11, V12. -/
theorem test_host_faults :
    hostMove (.routerRead .w32 2) State.reset = .toCaller (.outOfRange 2) ∧
      hostMove (.writeBytes 0x0002FFFE [1, 2, 3]) State.reset = .toCaller (.outOfRange 0x0002FFFE) ∧
      hostMove (.writeBytes 0x0001FFFE [1, 2, 3]) State.reset = .toCaller (.outOfRange 0x0001FFFE) := ⟨rfl, rfl, rfl⟩
/-- RL1: a machine that is constructed and not run makes no step. -/
theorem test_step_before_run : step State.reset = .next State.reset := rfl

/-! ### Witnesses: each statement's hypotheses are met together -/

/-- REF-OV of 95_test_vectors.md section 2.2: two overlapping fixtures and all of a state that can be written out. -/
def refOv : Configuration :=
  { map := Config.ref.map
    devices := [⟨0x00010000, 0x20, .fixture⟩, ⟨0x00010010, 0x20, .fixture⟩] }

/-- REF-OV with registers preset and one word placed and run. -/
def ov (presets : List (Reg × Word)) (w : Nat) : State :=
  (presets.foldl (fun s p => s.setReg p.1 p.2) (constructed refOv)).withFetchWord 32 w

/-- A step's next state, or the state itself. -/
def after (s : State) : State :=
  match step s with
  | .next t => t
  | .fault _ => s
  | .refused _ => s

/-- An instruction's next state, or the state itself. -/
def afterExec (i : Instr) (s : State) : State :=
  match exec i s with
  | .next t => t
  | .fault _ => s
  | .refused _ => s

/-- The invariant of a state that can be written out, from its decidable parts. -/
theorem inv_of_checks {s : State} (h : s.map.wf = true ∧ Memory.wf s.ram = true ∧
    (∀ c ∈ s.ram, s.map.ramBase.toNat ≤ c.1 ∧ c.1 ≤ ramEnd s.map) ∧ (∀ d ∈ s.devices, d.wf = true) ∧
    (s.running = true → s.fault = none) ∧ (s.running = true ∨ s.fault ≠ none → s.runCalled = true)) : s.Inv :=
  ⟨h.1, h.2.1, h.2.2.1, h.2.2.2.1, h.2.2.2.2.1, h.2.2.2.2.2⟩

theorem witness_encode_of_decode : decodeWord 0xCD7F9A52 = .ok (.add 5 10 9) := by decide
theorem witness_assembled_line :
    (AsmLine.branchEq 15 0 (-128)).wf = true ∧
      (AsmLine.branchEq 15 0 (-128)).instr? = some (.branchEq 15 0 0x80) := by decide
theorem witness_illegal_opcode :
    8 ≤ (8 : Word).toNat % 16 ∧ (ov [] 8).running = true ∧ fetch (ov [] 8) = .ok (8, ov [] 8) := ⟨by decide, rfl, rfl⟩
theorem witness_construction : refOv.wf = true ∧ Config.ref.wf = true := by decide
theorem witness_bad_configuration : construct { refOv with map := ⟨0x100, 0, 0, 0⟩ } = .refused .badConfiguration := rfl
theorem witness_step_runs :
    (ov [] 7).running = true ∧ fetch (ov [] 7) = .ok (7, ov [] 7) ∧ decodeWord 7 = .ok .nop := ⟨rfl, rfl, by decide⟩
/-- A step that completes and one that does not, both of a running machine. -/
theorem witness_completed_and_faulting_step :
    (step (ov [] 7) = .next (after (ov [] 7)) ∧ (after (ov [] 7)).running = true) ∧
      (ov [] 15).running = true ∧ step (ov [] 15) = .next (after (ov [] 15)) ∧ (after (ov [] 15)).running = false :=
  ⟨⟨rfl, rfl⟩, rfl, rfl, rfl⟩
/-- A pc in each case of the fetch: invalid just above RAM, misaligned at the last byte of RAM, aligned at both ends of RAM
and of the device zone. -/
theorem witness_fetch_cases :
    isValidAddress refOv.map 0x00030000 = false ∧
      (isValidAddress refOv.map 0x0002FFFF = true ∧ (0x0002FFFF : Word).toNat % 4 ≠ 0) ∧
      (isRAMAddress refOv.map 0x00020000 = true ∧ (0x00020000 : Word).toNat % 4 = 0) ∧
      (isRAMAddress refOv.map 0x0002FFFC = true ∧ (0x0002FFFC : Word).toNat % 4 = 0) ∧
      (isRAMAddress refOv.map 0x0001FFFC = false ∧ isPeripheralAddress refOv.map 0x0001FFFC = true ∧
        (0x0001FFFC : Word).toNat % 4 = 0 ∧ resolve (constructed refOv).devices 0x0001FFFC = none) ∧
      isPeripheralAddress refOv.map 0x00010000 = true ∧ resolve (constructed refOv).devices 0x00010000 = some 0 ∧
      (constructed refOv).hooks = Hooks.composed := by decide
theorem witness_fetch_faults :
    (((ov [] 7).setPc 0x00030000).running = true ∧ isValidAddress ((ov [] 7).setPc 0x00030000).map 0x00030000 = false) ∧
      isValidAddress ((ov [] 7).setPc 0x0002FFFF).map 0x0002FFFF = true := by decide
/-- A fetched LOAD just above RAM, and a fetched STORE at a misaligned RAM address. -/
theorem witness_data_fault_in_step :
    ((ov [(2, 0x00030000)] 0x210).running = true ∧
      fetch (ov [(2, 0x00030000)] 0x210) = .ok (0x210, ov [(2, 0x00030000)] 0x210) ∧ decodeWord 0x210 = .ok (.load 1 2 0) ∧
      isValidAddress refOv.map (effectiveAddress 2 0 (ov [(2, 0x00030000)] 0x210)) = false) ∧
      fetch (ov [(2, 0x0002FFFD)] 0x211) = .ok (0x211, ov [(2, 0x0002FFFD)] 0x211) ∧ decodeWord 0x211 = .ok (.store 1 2 0) ∧
      isValidAddress refOv.map (effectiveAddress 2 0 (ov [(2, 0x0002FFFD)] 0x211)) = true ∧
      (effectiveAddress 2 0 (ov [(2, 0x0002FFFD)] 0x211)).toNat % 4 ≠ 0 :=
  ⟨⟨rfl, rfl, by decide, by decide⟩, rfl, by decide, by decide, by decide⟩
theorem witness_faulted_machine : (after (ov [] 15)).Inv ∧ (after (ov [] 15)).fault ≠ none ∧ (constructed refOv).running = false :=
  ⟨inv_of_checks (by decide), by decide, by decide⟩
theorem witness_run_starts :
    (constructed refOv).fault = none ∧
      step { constructed refOv with running := true, runCalled := true } =
        .next (after { constructed refOv with running := true, runCalled := true }) := ⟨rfl, rfl⟩
/-- One completed step, and one completed step with a faulting one after it. -/
theorem witness_steps :
    StepsTo 1 (ov [] 7) (after (ov [] 7)) ∧ (after (ov [] 7)).running = true ∧
      StepsTo 2 (ov [] 7) (after (after (ov [] 7))) ∧ (after (after (ov [] 7))).running = false :=
  ⟨.succ 0 _ _ _ (.zero _) rfl rfl, rfl, .succ 1 _ _ _ (.succ 0 _ _ _ (.zero _) rfl rfl) rfl rfl, rfl⟩
theorem witness_run_end :
    RunEndsAt 2 (ov [] 7) (after (after (ov [] 7))) ∧ RunEndsAt 1 (ov [] 7) (stopRun (after (ov [] 7))) :=
  ⟨⟨by decide, rfl, _, witness_steps.2.2.1, .inl rfl⟩, ⟨by decide, rfl, _, witness_steps.1, .inr rfl⟩⟩
theorem witness_step_keeps : (ov [] 7).Inv ∧ step (ov [] 7) = .next (after (ov [] 7)) := ⟨inv_of_checks (by decide), rfl⟩
theorem witness_host_move : (constructed refOv).Inv ∧ hostMove .run (constructed refOv) = .done (startRun (constructed refOv)) .nothing :=
  ⟨inv_of_checks (by decide), rfl⟩
theorem witness_reachable : Reachable (startRun (constructed refOv)) :=
  .moved .run .nothing _ _ (.constructed refOv _ rfl) rfl
/-- NOP at an aligned pc, which completes. -/
theorem witness_sequential :
    (ov [] 7).Inv ∧ (ov [] 7).running = true ∧ fetch (ov [] 7) = .ok (7, ov [] 7) ∧ decodeWord 7 = .ok .nop ∧
      step (ov [] 7) = .next (after (ov [] 7)) ∧ (after (ov [] 7)).running = true :=
  ⟨inv_of_checks (by decide), rfl, rfl, by decide, rfl, rfl⟩
/-- LOAD, STORE, ADD, SUB and MOV at an aligned pc, each of which completes. -/
theorem witness_sequential_others :
    ∀ w ∈ [0x210, 0x211, 0x2132, 0x2143, 0x654],
      (ov [(2, 0x00020100)] w).Inv ∧ (ov [(2, 0x00020100)] w).running = true ∧
        fetch (ov [(2, 0x00020100)] w) = .ok (BitVec.ofNat 32 w, ov [(2, 0x00020100)] w) ∧
        step (ov [(2, 0x00020100)] w) = .next (after (ov [(2, 0x00020100)] w)) ∧
        (after (ov [(2, 0x00020100)] w)).running = true := by
  intro w hw
  fin_cases hw <;> exact ⟨inv_of_checks (by decide), rfl, rfl, rfl, rfl⟩
/-- The loop BRANCH_EQ r0, r0, -1 completes twice. -/
theorem witness_run_goes_on :
    (ov [] 0x00FF0006).Inv ∧ (ov [] 0x00FF0006).running = true ∧ step (ov [] 0x00FF0006) = .next (after (ov [] 0x00FF0006)) ∧
      (after (ov [] 0x00FF0006)).running = true ∧
      step (after (ov [] 0x00FF0006)) = .next (after (after (ov [] 0x00FF0006))) ∧
      (after (after (ov [] 0x00FF0006))).running = true :=
  ⟨inv_of_checks (by decide), rfl, rfl, rfl, rfl, rfl⟩
/-- The router's cases: refused, RAM, and the device zone with the hook wired and not. -/
theorem witness_router_cases :
    checkAccess refOv.map .w32 0x0002FFFE = some (.alignment 0x0002FFFE) ∧
      (checkAccess refOv.map .w32 0x0002FFFC = none ∧ isRAMAddress refOv.map 0x0002FFFC = true) ∧
      (checkAccess refOv.map .w16 0x0001FFFE = none ∧ isRAMAddress refOv.map 0x0001FFFE = false) ∧
      Hooks.composed.readHook .w16 = .busCoordinator ∧ Hooks.composed.writeHook .w16 = .busCoordinator ∧
      ({ Hooks.composed with read16 := .unregistered } : Hooks).readHook .w16 = .unregistered ∧
      ({ Hooks.composed with write16 := .unregistered } : Hooks).writeHook .w16 = .unregistered ∧
      Memory.wf (constructed refOv).ram = true ∧ isValidAddress refOv.map 0x0000FFFF = false := by decide
/-- The last aligned word of each zone. -/
theorem witness_aligned_access :
    refOv.map.wf = true ∧ checkAccess refOv.map .w32 0x0002FFFC = none ∧ checkAccess refOv.map .w32 0x0001FFFC = none := by
  decide
theorem witness_stored_word :
    (ov [] 7).Inv ∧ isRAMAddress (ov [] 7).map 0x0002FFFC = true ∧ (0x0002FFFC : Word).toNat % 4 = 0 :=
  ⟨inv_of_checks (by decide), by decide, by decide⟩
/-- An address two fixtures claim, one only the second claims, and one no device does; and a device of size 0. -/
theorem witness_bus_cases :
    resolve (constructed refOv).devices 0x00010018 = some 0 ∧ resolve (constructed refOv).devices 0x0001002F = some 1 ∧
      resolve (constructed refOv).devices 0x00010030 = none ∧
      (constructed refOv).devices[1]? = some (constructDevice ⟨0x00010010, 0x20, .fixture⟩) ∧
      (constructDevice ⟨0x00010010, 0, .fixture⟩).size = 0 := by decide
/-- A LOAD or STORE at 0x00010030, which no device claims. -/
theorem witness_unmapped :
    (ov [(2, 0x00010030)] 7).hooks = Hooks.composed ∧
      isRAMAddress (ov [(2, 0x00010030)] 7).map (effectiveAddress 2 0 (ov [(2, 0x00010030)] 7)) = false ∧
      isPeripheralAddress (ov [(2, 0x00010030)] 7).map (effectiveAddress 2 0 (ov [(2, 0x00010030)] 7)) = true ∧
      (effectiveAddress 2 0 (ov [(2, 0x00010030)] 7)).toNat % 4 = 0 ∧
      resolve (ov [(2, 0x00010030)] 7).devices (effectiveAddress 2 0 (ov [(2, 0x00010030)] 7)) = none := by decide
/-- SER of REF, the second device. -/
theorem witness_serial :
    (ready [(2, 0x00010100)] 7).Composed ∧ isRAMAddress (ready [(2, 0x00010100)] 7).map 0x00010100 = false ∧
      isPeripheralAddress (ready [(2, 0x00010100)] 7).map 0x00010100 = true ∧ (0x00010100 : Word).toNat % 4 = 0 ∧
      effectiveAddress 2 0 (ready [(2, 0x00010100)] 7) = 0x00010100 ∧
      resolve (ready [(2, 0x00010100)] 7).devices 0x00010100 = some 1 ∧
      (ready [(2, 0x00010100)] 7).devices[1]? = some (constructDevice ⟨0x00010100, 0x10, .serial 0⟩) ∧
      (constructDevice ⟨0x00010100, 0x10, .serial 0⟩).state = .serial 0 (Config.serialInitial 0) :=
  ⟨rfl, by decide, by decide, by decide, by decide, rfl, rfl, rfl⟩
/-- One byte at RAM_END, and two, which leave RAM. -/
theorem witness_bulk :
    Memory.wf (constructed refOv).ram = true ∧ (constructed refOv).map.wf = true ∧
      (isRAMAddress refOv.map 0x0002FFFF = true ∧ (0x0002FFFF : Word).toNat + [(5 : Byte)].length - 1 ≤ ramEnd refOv.map) ∧
      ¬ (isRAMAddress refOv.map 0x0002FFFF = true ∧
        (0x0002FFFF : Word).toNat + [(5 : Byte), 6].length - 1 ≤ ramEnd refOv.map) := by decide
/-- load before run() inside RAM and, of a map whose LOAD_ADDR is not in RAM, outside it; and after run(). -/
theorem witness_load :
    (constructed refOv).Inv ∧ (constructed refOv).runCalled = false ∧
      isRAMAddress refOv.map refOv.map.loadAddr = true ∧
      refOv.map.loadAddr.toNat + [(5 : Byte)].length - 1 ≤ ramEnd refOv.map ∧
      isRAMAddress { refOv.map with loadAddr := 0 } 0 = false ∧ (ov [] 7).Inv ∧ (ov [] 7).runCalled = true :=
  ⟨inv_of_checks (by decide), rfl, by decide, by decide, by decide, inv_of_checks (by decide), rfl⟩
theorem witness_register_accessor : (15 : Word).toNat < 16 ∧ 16 ≤ (16 : Word).toNat ∧ 15 < (16 : Word).toNat := by decide
/-- Each clause of R126's table: the pc, the effective address, the router's address, a bulk end, the index. -/
theorem witness_out_of_range :
    isValidAddress ((ov [(2, 0x00030000)] 7).setPc 0x0000FFFF).map 0x0000FFFF = false ∧
      isValidAddress (ov [(2, 0x00030000)] 7).map (effectiveAddress 2 0 (ov [(2, 0x00030000)] 7)) = false ∧
      ¬ (isRAMAddress refOv.map 0x0002FFFF = true ∧ (0x0002FFFF : Word).toNat + 2 - 1 < 2 ^ 32 ∧
        isRAMAddress refOv.map (BitVec.ofNat 32 ((0x0002FFFF : Word).toNat + 2 - 1)) = true) := by decide
theorem witness_launch :
    Launch ((ramWrite .w8 0x00020000 7 (constructed refOv)).setReg 1 9) :=
  .preset 1 9 _ _ (.loaded refOv [7] _ _ rfl rfl) rfl
theorem witness_other_register : (0 : Reg) ≠ 15 := by decide
/-- The base 0x0002FFFC, with offset 0, and LOAD and STORE at it. -/
theorem witness_ram_access :
    (0x0002FFFC : Word) = BitVec.ofNat 32 ((((ov [(2, 0x0002FFFC)] 7).getReg 2).toNat + (0 : Byte).toNat) % 2 ^ 32) ∧
      isRAMAddress (ov [(2, 0x0002FFFC)] 7).map 0x0002FFFC = true ∧ (0x0002FFFC : Word).toNat % 4 = 0 ∧
      Memory.wf (ov [(2, 0x0002FFFC)] 7).ram = true := by decide
/-- LOAD and STORE at 0x0001002C, in the second fixture. -/
theorem witness_device_access :
    (ov [(2, 0x00010020)] 7).hooks = Hooks.composed ∧
      effectiveAddress 2 0x0C (ov [(2, 0x00010020)] 7) = 0x0001002C ∧
      isRAMAddress (ov [(2, 0x00010020)] 7).map 0x0001002C = false ∧
      isPeripheralAddress (ov [(2, 0x00010020)] 7).map 0x0001002C = true ∧ (0x0001002C : Word).toNat % 4 = 0 ∧
      resolve (ov [(2, 0x00010020)] 7).devices 0x0001002C = some 1 ∧
      (ov [(2, 0x00010020)] 7).devices[1]? = some (constructDevice ⟨0x00010010, 0x20, .fixture⟩) := by decide
theorem witness_trap :
    isValidAddress (ov [(2, 0x00030000)] 7).map (effectiveAddress 2 0 (ov [(2, 0x00030000)] 7)) = false ∧
      isValidAddress (ov [(2, 0x0002FFFD)] 7).map (effectiveAddress 2 0 (ov [(2, 0x0002FFFD)] 7)) = true ∧
      (effectiveAddress 2 0 (ov [(2, 0x0002FFFD)] 7)).toNat % 4 ≠ 0 := by decide
theorem witness_frames :
    exec (.add 1 2 3) (ov [] 7) = .next (afterExec (.add 1 2 3) (ov [] 7)) ∧
      exec (.sub 1 2 3) (ov [] 7) = .next (afterExec (.sub 1 2 3) (ov [] 7)) ∧
      exec (.mov 1 2) (ov [] 7) = .next (afterExec (.mov 1 2) (ov [] 7)) ∧
      exec (.jump 1) (ov [] 7) = .next (afterExec (.jump 1) (ov [] 7)) ∧
      exec (.branchEq 1 2 3) (ov [] 7) = .next (afterExec (.branchEq 1 2 3) (ov [] 7)) ∧
      exec .nop (ov [] 7) = .next (afterExec .nop (ov [] 7)) ∧
      exec (.load 1 2 0) (ov [(2, 0x00010000)] 7) = .next (afterExec (.load 1 2 0) (ov [(2, 0x00010000)] 7)) ∧
      exec (.store 1 2 0) (ov [(2, 0x00020100)] 7) = .next (afterExec (.store 1 2 0) (ov [(2, 0x00020100)] 7)) :=
  ⟨rfl, rfl, rfl, rfl, rfl, rfl, rfl, rfl⟩
/-- A STORE of JUMP's word at 0x00020100, and the pc set there. -/
theorem witness_stored_word_fetched :
    (ov [(1, 0x75), (2, 0x00020100)] 7).Inv ∧
      isRAMAddress refOv.map (effectiveAddress 2 0 (ov [(1, 0x75), (2, 0x00020100)] 7)) = true ∧
      (effectiveAddress 2 0 (ov [(1, 0x75), (2, 0x00020100)] 7)).toNat % 4 = 0 ∧
      exec (.store 1 2 0) (ov [(1, 0x75), (2, 0x00020100)] 7) =
        .next (afterExec (.store 1 2 0) (ov [(1, 0x75), (2, 0x00020100)] 7)) ∧
      ((afterExec (.store 1 2 0) (ov [(1, 0x75), (2, 0x00020100)] 7)).setPc 0x00020100).pc =
        effectiveAddress 2 0 (ov [(1, 0x75), (2, 0x00020100)] 7) :=
  ⟨inv_of_checks (by decide), by decide, by decide, rfl, by decide⟩

end Sys2Proof.Tests
end

section
/-! How each operation leaves the pc (spec/10_state.md R22). -/

namespace Sys2Proof.Machine

/-! ### The router, by the answer of its check -/

theorem memRead_of_check_some {n : Width} {a : Word} {s : State} {f : Fault} (h : checkAccess s.map n a = some f) :
    memRead n a s = .error f := by
  simp [memRead, h]

theorem memWrite_of_check_some {n : Width} {a v : Word} {s : State} {f : Fault} (h : checkAccess s.map n a = some f) :
    memWrite n a v s = .error f := by
  simp [memWrite, h]

theorem memRead_of_check_none {n : Width} {a : Word} {s : State} (h : checkAccess s.map n a = none) :
    ∃ v t, memRead n a s = .ok (v, t) := by
  simp only [memRead, h]
  exact ⟨_, _, rfl⟩

theorem memWrite_of_check_none {n : Width} {a v : Word} {s : State} (h : checkAccess s.map n a = none) :
    ∃ t, memWrite n a v s = .ok t := by
  simp [memWrite, h]

/-! ### The router leaves the pc -/

theorem memRead_pc {n : Width} {a v : Word} {s t : State} (h : memRead n a s = .ok (v, t)) : t.pc = s.pc := by
  obtain ⟨ds, rfl, _, _⟩ := memRead_ok_frame h
  rfl

theorem memWrite_pc {n : Width} {a v : Word} {s t : State} (h : memWrite n a v s = .ok t) : t.pc = s.pc := by
  rcases memWrite_cases n a v s with ⟨f, _, hf⟩ | ⟨_, _, hf⟩ | ⟨_, _, hf⟩
  · rw [hf] at h; cases h
  · rw [hf] at h; cases h; rfl
  · rw [hf] at h; cases h
    obtain ⟨ds, emitted, he, _, _⟩ := hookWrite_frame n a v s
    rw [he]

/-! ### LOAD, STORE and BRANCH_EQ by their outcome -/

section
variable {a b : Reg} {imm8 : Byte} {s t : State} {f : Fault}

theorem exec_load_of_error (h : memRead .w32 (effectiveAddress b imm8 s) s = .error f) :
    exec (.load a b imm8) s = .next (takeFault f s) := by
  simp [exec, execLoad, h, raiseFault]

theorem exec_load_of_ok {v : Word} (h : memRead .w32 (effectiveAddress b imm8 s) s = .ok (v, t)) :
    exec (.load a b imm8) s = .next (t.setReg a v).advance := by
  simp [exec, execLoad, h]

theorem exec_store_of_error (h : memWrite .w32 (effectiveAddress b imm8 s) (s.getReg a) s = .error f) :
    exec (.store a b imm8) s = .next (takeFault f s) := by
  simp [exec, execStore, h, raiseFault]

theorem exec_store_of_ok (h : memWrite .w32 (effectiveAddress b imm8 s) (s.getReg a) s = .ok t) :
    exec (.store a b imm8) s = .next t.advance := by
  simp [exec, execStore, h]

theorem exec_branchEq_of_eq (h : s.getReg a = s.getReg b) :
    exec (.branchEq a b imm8) s = .next (s.setPc (s.pc + branchOffset imm8)).advance := by
  simp [exec, execBranchEq, regsEqual, h]

theorem exec_branchEq_of_ne (h : s.getReg a ≠ s.getReg b) : exec (.branchEq a b imm8) s = .next s.advance := by
  simp [exec, execBranchEq, regsEqual, h]

end

/-- Settles O44, operation by operation: LOAD and STORE by the router's check, which decides between the fault and an
access that leaves the pc for the trailing advance; BRANCH_EQ by its comparison. -/
theorem pcAfterEachInstruction : Obligations.PcAfterEachInstruction := by
  intro i s
  cases i with
  | load a b imm8 =>
    refine ⟨fun hc => ?_, fun f hf => ⟨exec_load_of_error (memRead_of_check_some hf), rfl⟩⟩
    obtain ⟨v, t, ht⟩ := memRead_of_check_none hc
    exact ⟨_, exec_load_of_ok ht, by simp [memRead_pc ht]⟩
  | store a b imm8 =>
    refine ⟨fun hc => ?_, fun f hf => ⟨exec_store_of_error (memWrite_of_check_some hf), rfl⟩⟩
    obtain ⟨t, ht⟩ := memWrite_of_check_none hc
    exact ⟨_, exec_store_of_ok ht, by simp [memWrite_pc ht]⟩
  | add a b c => exact ⟨_, rfl, rfl⟩
  | sub a b c => exact ⟨_, rfl, rfl⟩
  | mov a b => exact ⟨_, rfl, rfl⟩
  | jump a => exact ⟨_, rfl, rfl⟩
  | branchEq a b imm8 =>
    by_cases h : s.getReg a = s.getReg b
    · exact ⟨_, exec_branchEq_of_eq h, by simp [h, branchOffset, signExtended]⟩
    · exact ⟨_, exec_branchEq_of_ne h, by simp [h]⟩
  | nop => exact ⟨_, rfl, rfl⟩

end Sys2Proof.Machine
end

section
/-! The zones and the router's accesses, by their case (spec/20_memory.md R39, R45 to R48). -/

namespace Sys2Proof.Machine

/-! ### The zones -/

theorem isPeripheralAddress_iff (m : MemoryMap) (a : Word) :
    isPeripheralAddress m a = true ↔ m.deviceBase.toNat ≤ a.toNat ∧ a.toNat < m.ramBase.toNat := by
  simp [isPeripheralAddress]

theorem isValidAddress_iff (m : MemoryMap) (a : Word) :
    isValidAddress m a = true ↔ isRAMAddress m a = true ∨ isPeripheralAddress m a = true := by
  simp [isValidAddress]

/-- RAM_BASE parts the zones: a RAM address is not below it, and a device-zone address is. -/
theorem not_ram_and_peripheral (m : MemoryMap) (a : Word) :
    ¬ (isRAMAddress m a = true ∧ isPeripheralAddress m a = true) := by
  rintro ⟨hr, hp⟩
  exact Nat.not_lt.mpr ((isRAMAddress_iff m a).mp hr).1 ((isPeripheralAddress_iff m a).mp hp).2

/-- Settles O26, by the comparisons of each zone. -/
theorem zonesAreClassifiedByRange : Obligations.ZonesAreClassifiedByRange := fun m a =>
  ⟨isRAMAddress_iff m a, isPeripheralAddress_iff m a, isValidAddress_iff m a, not_ram_and_peripheral m a⟩

/-! ### The hooks -/

section
variable {n : Width} {a v : Word} {s : State}

theorem hookRead_of_busCoordinator (h : s.hooks.readHook n = .busCoordinator) : hookRead n a s = busRead n a s := by
  simp [hookRead, h]

theorem hookRead_of_unregistered (h : s.hooks.readHook n = .unregistered) : hookRead n a s = (0, s) := by
  simp [hookRead, h]

theorem hookWrite_of_busCoordinator (h : s.hooks.writeHook n = .busCoordinator) :
    hookWrite n a v s = busWrite n a v s := by
  simp [hookWrite, h]

theorem hookWrite_of_unregistered (h : s.hooks.writeHook n = .unregistered) : hookWrite n a v s = s := by
  simp [hookWrite, h]

/-! ### A router access the check lets through, by its zone -/

theorem memRead_of_ram (hc : checkAccess s.map n a = none) (hr : isRAMAddress s.map a = true) :
    memRead n a s = .ok (ramRead n a s, s) :=
  memRead_ram hr (checkAccess_none.mp hc).2

theorem memWrite_of_ram (hc : checkAccess s.map n a = none) (hr : isRAMAddress s.map a = true) :
    memWrite n a v s = .ok (ramWrite n a v s) :=
  memWrite_ram hr (checkAccess_none.mp hc).2

theorem memRead_of_not_ram (hc : checkAccess s.map n a = none) (hr : isRAMAddress s.map a = false) :
    memRead n a s = .ok (hookRead n a s) := by
  simp [memRead, hc, hr]

theorem memWrite_of_not_ram (hc : checkAccess s.map n a = none) (hr : isRAMAddress s.map a = false) :
    memWrite n a v s = .ok (hookWrite n a v s) := by
  simp [memWrite, hc, hr]

end

/-- Settles O27: the check decides first, then the zone; a RAM read is the composition of its bytes at each width, a
device-zone read what the hook answers. -/
theorem routerReadFollowsItsRule : Obligations.RouterReadFollowsItsRule := by
  intro n a s
  refine ⟨fun f hf => memRead_of_check_some hf, fun hc hr => ?_, fun hc hr => ⟨fun hh => ?_, fun hh => ?_⟩⟩
  · refine (memRead_of_ram hc hr).trans (congrArg (fun v => Except.ok (v, s)) ?_)
    cases n with
    | w8 => exact ramRead_w8 a s
    | w16 => exact ramRead_w16 a s
    | w32 => exact ramRead_w32 a s
  · rw [memRead_of_not_ram hc hr, hookRead_of_busCoordinator hh]
  · rw [memRead_of_not_ram hc hr, hookRead_of_unregistered hh]

/-- Settles O28: the check decides first, then the zone; a RAM write is known by the bytes it stores and those it leaves,
a device-zone write by what the hook does. -/
theorem routerWriteFollowsItsRule : Obligations.RouterWriteFollowsItsRule := by
  intro n a v s hw
  refine ⟨fun f hf => memWrite_of_check_some hf, fun hc hr => ?_, fun hc hr => ⟨fun hh => ?_, fun hh => ?_⟩⟩
  · exact ⟨(ramWrite n a v s).ram, memWrite_of_ram hc hr, fun j hj => read_ramWrite_inside hw hj,
      fun k hk => read_ramWrite_outside hw hk⟩
  · rw [memWrite_of_not_ram hc hr, hookWrite_of_busCoordinator hh]
  · rw [memWrite_of_not_ram hc hr, hookWrite_of_unregistered hh]

end Sys2Proof.Machine
end

section
/-! Resolving a device, the bus coordinator, and a device's reset (spec/20_memory.md R56 to R58, R63, R64). -/

namespace Sys2Proof.Machine

/-! ### resolve -/

theorem isInRange_iff (d : Device) (a : Word) :
    d.isInRange a = true ↔ d.base.toNat ≤ a.toNat ∧ a.toNat < d.base.toNat + d.size := by
  simp [Device.isInRange]

theorem isInRange_of_size_zero {d : Device} (h : d.size = 0) (a : Word) : d.isInRange a = false := by
  by_contra hr
  obtain ⟨hlo, hhi⟩ := (isInRange_iff d a).mp (by simpa using hr)
  omega

/-- A device that holds the address, with no earlier one that does, is what resolve answers: the index it answers can be
neither later nor earlier. -/
theorem resolve_of_first {ds : List Device} {a : Word} {k : Nat} {d : Device} (hd : ds[k]? = some d)
    (hr : d.isInRange a = true) (hlt : ∀ j e, j < k → ds[j]? = some e → e.isInRange a = false) :
    resolve ds a = some k := by
  cases h : resolve ds a with
  | none => simp [resolve_none.mp h d (List.mem_of_getElem? hd)] at hr
  | some i =>
    obtain ⟨e, he, hre, hlte⟩ := resolve_some h
    rcases Nat.lt_trichotomy i k with hik | rfl | hki
    · simp [hlt i e hik he] at hre
    · rfl
    · simp [hlte k d hki hd] at hr

theorem resolve_eq_some_iff {ds : List Device} {a : Word} {k : Nat} :
    resolve ds a = some k ↔
      (∃ d, ds[k]? = some d ∧ d.isInRange a = true) ∧
        ∀ j d, j < k → ds[j]? = some d → d.isInRange a = false := by
  constructor
  · intro h
    obtain ⟨d, hd, hr, hlt⟩ := resolve_some h
    exact ⟨⟨d, hd, hr⟩, hlt⟩
  · rintro ⟨⟨d, hd, hr⟩, hlt⟩
    exact resolve_of_first hd hr hlt

/-- Settles O32, from the range of one device and the list's first match. -/
theorem resolveIsTheFirstMatch : Obligations.ResolveIsTheFirstMatch :=
  ⟨fun d a => ⟨isInRange_iff d a, fun h => isInRange_of_size_zero h a⟩,
    fun _ _ => ⟨fun _ => resolve_eq_some_iff, resolve_none⟩⟩

/-! ### The bus coordinator -/

section
variable {n : Width} {a v : Word} {s : State}

theorem busRead_of_unmapped (h : resolve s.devices a = none) : busRead n a s = (0, s) := by
  simp [busRead, h]

theorem busWrite_of_unmapped (h : resolve s.devices a = none) : busWrite n a v s = s := by
  simp [busWrite, h]

variable {k : Nat} {d : Device}

theorem busRead_of_resolved (h : resolve s.devices a = some k) (hd : s.devices[k]? = some d) :
    busRead n a s =
      ((d.read n (a - d.base)).1, { s with devices := s.devices.set k (d.read n (a - d.base)).2 }) := by
  simp [busRead, h, hd]

theorem busWrite_of_resolved (h : resolve s.devices a = some k) (hd : s.devices[k]? = some d) :
    busWrite n a v s = { s with
      devices := s.devices.set k (d.write n (a - d.base) v).1
      out := s.out ++ (d.write n (a - d.base) v).2 } := by
  simp [busWrite, h, hd]

end

/-- Settles O33, by whether a device resolves. -/
theorem busDispatchesAtTheOffset : Obligations.BusDispatchesAtTheOffset := fun _ _ _ _ =>
  ⟨fun h => ⟨busRead_of_unmapped h, busWrite_of_unmapped h⟩,
    fun _ _ h hd => ⟨busRead_of_resolved h hd, busWrite_of_resolved h hd⟩⟩

/-! ### A device's reset -/

@[simp] theorem entry_read (d : Device) (n : Width) (o : Word) : (d.read n o).2.entry = d.entry :=
  (readSeq_keeps n.bytes o d).1

@[simp] theorem entry_write (d : Device) (n : Width) (o v : Word) : (d.write n o v).1.entry = d.entry :=
  (writeSeq_keeps (splitLE n.bytes v) o d).1

/-- reset() gives the device as constructed from its entry, so it depends on the entry alone. -/
theorem reset_eq_constructDevice (d : Device) : d.reset = constructDevice d.entry := rfl

theorem reset_congr {d e : Device} (h : e.entry = d.entry) : e.reset = d.reset := by
  rw [reset_eq_constructDevice, reset_eq_constructDevice, h]

/-- Settles O36: no access and no update changes the entry, which is all that reset() reads. -/
theorem deviceResetRestoresConstruction : Obligations.DeviceResetRestoresConstruction := fun d n o v =>
  ⟨reset_eq_constructDevice d, reset_congr (entry_read d n o), reset_congr (entry_write d n o v),
    reset_congr (entry_update d)⟩

end Sys2Proof.Machine
end

section
/-! The words with op 8 to 15: what decode answers and what the step does with them (spec/30_encoding.md R88). -/

namespace Sys2Proof.Machine

/-! ### The low nibble -/

theorem toNat_lowNibble (w : Word) : (w.extractLsb' 0 4).toNat = w.toNat % 16 := by
  simp [BitVec.extractLsb'_toNat]

/-- The low nibble widened to a word is the word under the mask 0xF. -/
theorem setWidth_lowNibble (w : Word) : (w.extractLsb' 0 4).setWidth 32 = w &&& 0xF := by
  apply BitVec.eq_of_toNat_eq
  have hmask : (w &&& 0xF).toNat = w.toNat % 16 := Nat.and_two_pow_sub_one_eq_mod w.toNat 4
  have hlt : w.toNat % 16 < 2 ^ 32 := by omega
  rw [BitVec.toNat_setWidth, toNat_lowNibble, hmask, Nat.mod_eq_of_lt hlt]

/-! ### Decode -/

/-- The opcode map has no arm for an op of 8 or more. -/
theorem decodeFields_of_illegal {f : Fields} (h : 8 ≤ f.op.toNat) :
    decodeFields f = .error (.unknownOpcode f.op) := by
  unfold decodeFields
  split
  case h_9 => rfl
  all_goals omega

theorem decodeWord_of_illegal {w : Word} (h : 8 ≤ w.toNat % 16) :
    decodeWord w = .error (.unknownOpcode (w.extractLsb' 0 4)) :=
  decodeFields_of_illegal (f := fieldsOf w) (h.trans_eq (toNat_lowNibble w).symm)

/-! ### The step -/

theorem fetch_cycles {s t : State} {w : Word} (h : fetch s = .ok (w, t)) : t.cycles = s.cycles :=
  (follows_memRead h).cycles

theorem fetch_pc {s t : State} {w : Word} (h : fetch s = .ok (w, t)) : t.pc = s.pc := memRead_pc h

theorem step_of_decode_error {s t : State} {w : Word} {e : DecodeError} (hr : s.running = true)
    (hf : fetch s = .ok (w, t)) (he : decodeWord w = .error e) : step s = .next (takeFault (decodeFault e) t) := by
  simp [step, hr, hf, he, raiseFault]

/-- The record written for an illegal word: its op value, with the count and the pc of the state the fetch left. -/
theorem faultRecord_of_illegal (w : Word) (t : State) :
    faultRecord (decodeFault (.unknownOpcode (w.extractLsb' 0 4))) t = ⟨.unknownOpcode, t.cycles, t.pc, w &&& 0xF⟩ :=
  congrArg (FaultRecord.mk .unknownOpcode t.cycles t.pc) (setWidth_lowNibble w)

/-- Settles O5: decode refuses the word with its low nibble, so the step takes that fault in the state the fetch left,
whose count and pc are those before the step. -/
theorem illegalOpcodeStopsTheRun : Obligations.IllegalOpcodeStopsTheRun := by
  refine ⟨fun w hw => decodeWord_of_illegal hw, fun s t w hr hf hw => ⟨?_, fetch_cycles hf⟩⟩
  rw [step_of_decode_error hr hf (decodeWord_of_illegal hw), takeFault, faultRecord_of_illegal, fetch_cycles hf,
    fetch_pc hf]

end Sys2Proof.Machine
end

section
/-! What ends a running machine's step and what stop() does (spec/40_cycle.md R102 to R104, R106). -/

namespace Sys2Proof.Machine

/-! ### stop() -/

theorem stopRun_of_not_running {s : State} (h : s.running = false) : stopRun s = s := by
  rw [stopRun, ← h]

/-- Settles O16: a stopped machine is not running, so a further stop() finds nothing to change. -/
theorem stopIsIdempotentAndReportsTheCount : Obligations.StopIsIdempotentAndReportsTheCount :=
  fun s => ⟨rfl, stopRun_of_not_running (stopRun_running s), stopRun_of_not_running⟩

/-! ### A step of a running machine -/

/-- No operation touches the cycle count, whether it raises a fault or not: counting is the Run Loop's (R104). -/
theorem exec_cycles {i : Instr} {s t : State} (h : exec i s = .next t) : t.cycles = s.cycles := by
  rcases exec_cases i s with ⟨_, _, f, _, he⟩ | ⟨u, he, hu⟩
  · rw [he] at h; cases h
    exact takeFault_cycles f s
  · rw [he] at h; cases h
    exact hu.cycles

/-- A running machine's step ends in two ways: it takes a fault, in its own state where the fetch refused and in the state
the fetch left otherwise; or it completes what the operation answered. -/
theorem step_of_running_cases {s t : State} (hr : s.running = true) (h : step s = .next t) :
    (∃ f u, (u = s ∨ ∃ w, fetch s = .ok (w, u)) ∧ t = takeFault f u) ∨
      ∃ w u i v, fetch s = .ok (w, u) ∧ decodeWord w = .ok i ∧ exec i u = .next v ∧ v.running = true ∧
        t = completeStep v := by
  rcases step_cases s with ⟨hn, _⟩ | ⟨_, f, _, he⟩ | ⟨_, w, u, e, hf, _, he⟩ | ⟨_, w, u, _, _, _, f, hf, _, _, _, he⟩ |
    ⟨_, w, u, i, v, hf, hd, hx, hv, he⟩
  · rw [hr] at hn; cases hn
  · rw [he] at h; cases h
    exact .inl ⟨f, s, .inl rfl, rfl⟩
  · rw [he] at h; cases h
    exact .inl ⟨decodeFault e, u, .inr ⟨w, hf⟩, rfl⟩
  · rw [he] at h; cases h
    exact .inl ⟨f, u, .inr ⟨w, hf⟩, rfl⟩
  · rw [he] at h; cases h
    exact .inr ⟨w, u, i, v, hf, hd, hx, hv, rfl⟩

/-- Settles O10: running tells the two ends of the step apart. Neither the fetch nor the operation counts, so the count
changes by what completion adds; a fault keeps the devices of the state it is taken in. -/
theorem completedStepCountsAndUpdatesEveryDevice : Obligations.CompletedStepCountsAndUpdatesEveryDevice := by
  intro s t hr h
  rcases step_of_running_cases hr h with ⟨f, u, hu, rfl⟩ | ⟨w, u, i, v, hf, hd, hx, hv, rfl⟩
  · refine ⟨fun hrun => by simp at hrun, fun _ => ?_⟩
    rcases hu with rfl | ⟨w, hf⟩
    · exact ⟨rfl, .inl rfl⟩
    · exact ⟨(takeFault_cycles f u).trans (fetch_cycles hf), .inr ⟨w, u, hf, rfl⟩⟩
  · refine ⟨fun _ => ⟨w, u, v, i, hf, hd, hx, ?_, rfl⟩, fun hstop => by simp [hv] at hstop⟩
    rw [completeStep_cycles, exec_cycles hx, fetch_cycles hf]

end Sys2Proof.Machine
end

section
/-! Encoding: the packing formula and the extraction of its fields undo each other, and the assembler's sum is the same
formula (spec/30_encoding.md R82, R87, R89, R91, R93). -/

namespace Sys2Proof

/-! ### Extraction undoes packing -/

/-- A field of a packed word, from what its bits are at the field's place. -/
theorem extractLsb'_packFields (f : Fields) {start len : Nat} (x : BitVec len)
    (hx : ∀ i, i < len → (packFields f).getLsbD (start + i) = x.getLsbD i) :
    (packFields f).extractLsb' start len = x := by
  apply BitVec.eq_of_getLsbD_eq
  intro i hi
  rw [BitVec.getLsbD_extractLsb', hx i hi]
  simp [hi]

theorem fieldsOf_packFields (f : Fields) : fieldsOf (packFields f) = f := by
  have hop : (packFields f).extractLsb' 0 4 = f.op := (Laws.packFields_low_top f).1
  have ha : (packFields f).extractLsb' 4 4 = f.a := extractLsb'_packFields f _ fun i hi => by
    simp [Laws.getLsbD_packFields f (4 + i) (by omega), show 4 + i < 8 by omega]
  have hb : (packFields f).extractLsb' 8 4 = f.b := extractLsb'_packFields f _ fun i hi => by
    simp [Laws.getLsbD_packFields f (8 + i) (by omega), show ¬ 8 + i < 4 by omega, show 8 + i < 12 by omega]
  have hc : (packFields f).extractLsb' 12 4 = f.c := extractLsb'_packFields f _ fun i hi => by
    simp [Laws.getLsbD_packFields f (12 + i) (by omega), show ¬ 12 + i < 4 by omega, show ¬ 12 + i < 8 by omega,
      show 12 + i < 16 by omega]
  have himm : (packFields f).extractLsb' 16 8 = f.imm8 := extractLsb'_packFields f _ fun i hi => by
    simp [Laws.getLsbD_packFields f (16 + i) (by omega), show ¬ 16 + i < 4 by omega, show ¬ 16 + i < 8 by omega,
      show ¬ 16 + i < 12 by omega, show 16 + i < 24 by omega]
  rw [fieldsOf, hop, ha, hb, hc, himm]

/-- The opcode map reads each instruction's own fields back. -/
theorem decodeFields_fields (i : Instr) : decodeFields i.fields = .ok i := by cases i <;> rfl

theorem decodeWord_encode (i : Instr) : decodeWord (encode i) = .ok i := by
  rw [decodeWord, encode, fieldsOf_packFields, decodeFields_fields]

theorem wordOfBytes_bytesOfWord (w : Word) :
    wordOfBytes (w.extractLsb' 0 8) (w.extractLsb' 8 8) (w.extractLsb' 16 8) (w.extractLsb' 24 8) = w := by
  simp only [wordOfBytes]
  rw [BitVec.extractLsb'_append_extractLsb'_eq_extractLsb' (by omega),
    BitVec.extractLsb'_append_extractLsb'_eq_extractLsb' (by omega),
    BitVec.extractLsb'_append_extractLsb'_eq_extractLsb' (by omega), BitVec.extractLsb'_eq_self]

theorem decodeBytes_bytesOfWord (w : Word) : decodeBytes (bytesOfWord w) = decodeWord w :=
  congrArg decodeWord (wordOfBytes_bytesOfWord w)

/-- Settles O2: extraction undoes packing, field by field, and the four bytes of a word make up the word. -/
theorem decodeOfEncodeIsTheInstruction : Obligations.DecodeOfEncodeIsTheInstruction := fun i =>
  ⟨decodeWord_encode i, (decodeBytes_bytesOfWord (encode i)).trans (decodeWord_encode i)⟩

/-! ### Packing what was extracted -/

/-- The fields under a mask for each. -/
def Fields.mask (f m : Fields) : Fields :=
  { op := f.op &&& m.op, a := f.a &&& m.a, b := f.b &&& m.b, c := f.c &&& m.c, imm8 := f.imm8 &&& m.imm8 }

/-- Packing a word's masked fields masks the word. -/
theorem packFields_mask_fieldsOf (w : Word) (m : Fields) :
    packFields ((fieldsOf w).mask m) = w &&& packFields m := by
  apply BitVec.eq_of_getLsbD_eq
  intro i hi
  rw [BitVec.getLsbD_and, Laws.getLsbD_packFields _ i hi, Laws.getLsbD_packFields m i hi]
  simp only [Fields.mask, fieldsOf, BitVec.getLsbD_and, BitVec.getLsbD_extractLsb']
  split_ifs with h4 h8 h12 h16 h24
  · simp [h4]
  · simp [show i - 4 < 4 by omega, show 4 + (i - 4) = i by omega]
  · simp [show i - 8 < 4 by omega, show 8 + (i - 8) = i by omega]
  · simp [show i - 12 < 4 by omega, show 12 + (i - 12) = i by omega]
  · simp [show i - 16 < 8 by omega, show 16 + (i - 16) = i by omega]
  · simp

/-- The fields an operation uses, all their bits set (R84, R89). -/
def Instr.usedFields : Instr → Fields
  | .load _ _ _ | .store _ _ _ | .branchEq _ _ _ => ⟨15, 15, 15, 0, 255⟩
  | .add _ _ _ | .sub _ _ _ => ⟨15, 15, 15, 15, 0⟩
  | .mov _ _ => ⟨15, 15, 15, 0, 0⟩
  | .jump _ => ⟨15, 15, 0, 0, 0⟩
  | .nop => ⟨15, 0, 0, 0, 0⟩

/-- The instruction decoded has the fields decoded from, the ignored ones cleared. -/
theorem fields_of_decodeFields {f : Fields} {i : Instr} (h : decodeFields f = .ok i) :
    i.fields = f.mask i.usedFields := by
  have hop : ∀ k, f.op.toNat = k → f.op = BitVec.ofNat 4 k := fun k hk => by simp [← hk]
  have h4 : ∀ x : BitVec 4, x &&& 15#4 = x := fun x => BitVec.and_allOnes
  have h8 : ∀ x : BitVec 8, x &&& 255#8 = x := fun x => BitVec.and_allOnes
  unfold decodeFields at h
  split at h
  case h_9 => cases h
  all_goals
    cases h
    simp [Instr.fields, Instr.opcode, Instr.usedFields, Fields.mask, hop _ ‹_›, h4, h8]

/-- Settles O3: the fields used are the word's own, so packing them masks the word, and the packed mask is the stated one. -/
theorem encodeOfDecodeClearsTheIgnoredBits : Obligations.EncodeOfDecodeClearsTheIgnoredBits := by
  intro w i h
  rw [encode, fields_of_decodeFields h, packFields_mask_fieldsOf]
  refine congrArg (w &&& ·) ?_
  cases i <;> simp only [Instr.usedFields] <;> decide

/-! ### The assembler's sum -/

/-- A field set above the bits of a word adds its shifted value. -/
theorem toNat_or_shiftLeft {n k : Nat} (x : Word) (y : BitVec n) (hx : x.toNat < 2 ^ k) (hk : k + n ≤ 32) :
    (x ||| (y.setWidth 32 <<< k)).toNat = x.toNat + y.toNat * 2 ^ k := by
  have hy : y.toNat * 2 ^ k < 2 ^ 32 :=
    calc y.toNat * 2 ^ k < 2 ^ n * 2 ^ k := Nat.mul_lt_mul_of_pos_right y.isLt (Nat.two_pow_pos k)
      _ = 2 ^ (k + n) := by rw [Nat.mul_comm, Nat.pow_add]
      _ ≤ 2 ^ 32 := Nat.pow_le_pow_right (by omega) hk
  have hn : y.toNat < 2 ^ 32 := y.isLt.trans_le (Nat.pow_le_pow_right (by omega) (by omega))
  rw [BitVec.toNat_or, BitVec.toNat_shiftLeft, BitVec.toNat_setWidth, Nat.mod_eq_of_lt hn, Nat.shiftLeft_eq,
    Nat.mod_eq_of_lt hy, ← Nat.shiftLeft_eq, Nat.or_comm, ← Nat.shiftLeft_add_eq_or_of_lt hx, Nat.add_comm]

/-- The formula of R93 as a sum: no two fields overlap. -/
theorem toNat_packFields (f : Fields) :
    (packFields f).toNat =
      f.op.toNat + f.a.toNat * 2 ^ 4 + f.b.toNat * 2 ^ 8 + f.c.toNat * 2 ^ 12 + f.imm8.toNat * 2 ^ 16 := by
  have hop := f.op.isLt
  have ha := f.a.isLt
  have hb := f.b.isLt
  have hc := f.c.isLt
  have h0 : (f.op.setWidth 32).toNat = f.op.toNat := BitVec.toNat_setWidth_of_le (by omega)
  have h1 := toNat_or_shiftLeft (k := 4) (f.op.setWidth 32) f.a (by omega) (by omega)
  have h2 := toNat_or_shiftLeft (k := 8) _ f.b (h1.trans_lt (by omega)) (by omega)
  have h3 := toNat_or_shiftLeft (k := 12) _ f.c (h2.trans_lt (by omega)) (by omega)
  have h4 := toNat_or_shiftLeft (k := 16) _ f.imm8 (h3.trans_lt (by omega)) (by omega)
  rw [packFields, h4, h3, h2, h1, h0]

theorem packFields_eq_asmSum {op a b c : Nat} (imm : Int) (hop : op < 16) (ha : a < 16) (hb : b < 16) (hc : c < 16) :
    packFields ⟨BitVec.ofNat 4 op, BitVec.ofNat 4 a, BitVec.ofNat 4 b, BitVec.ofNat 4 c, BitVec.ofInt 8 imm⟩ =
      asmSum op a b c imm := by
  have himm : (imm % 256).toNat < 256 := by omega
  apply BitVec.eq_of_toNat_eq
  rw [toNat_packFields, asmSum]
  simp only [BitVec.toNat_ofNat, BitVec.toNat_ofInt, Nat.mod_eq_of_lt, hop, ha, hb, hc, Nat.reducePow,
    Nat.cast_ofNat]
  omega

/-- The encoder writes the word the assembler emits. -/
theorem encode_of_assembled {l : AsmLine} {i : Instr} (hl : l.wf = true) (hi : l.instr? = some i) :
    encode i = l.emit := by
  cases l <;> simp only [AsmLine.wf, regNumberOk, Bool.and_eq_true, decide_eq_true_eq] at hl <;> cases hi
  case load a b imm =>
    obtain ⟨⟨ha, hb⟩, -⟩ := hl
    exact packFields_eq_asmSum imm (by decide) ha hb (by decide)
  case store a b imm =>
    obtain ⟨⟨ha, hb⟩, -⟩ := hl
    exact packFields_eq_asmSum imm (by decide) ha hb (by decide)
  case add a b c =>
    obtain ⟨⟨ha, hb⟩, hc⟩ := hl
    exact packFields_eq_asmSum 0 (by decide) ha hb hc
  case sub a b c =>
    obtain ⟨⟨ha, hb⟩, hc⟩ := hl
    exact packFields_eq_asmSum 0 (by decide) ha hb hc
  case mov a b =>
    obtain ⟨ha, hb⟩ := hl
    exact packFields_eq_asmSum 0 (by decide) ha hb (by decide)
  case jump a => exact packFields_eq_asmSum 0 (by decide) hl (by decide) (by decide)
  case branchEq a b imm =>
    obtain ⟨⟨ha, hb⟩, -⟩ := hl
    exact packFields_eq_asmSum imm (by decide) ha hb (by decide)
  case nop => rfl

/-- Settles O4: the line's word is the encoder's, and decoding undoes encoding. -/
theorem assembledLinesDecodeToTheirInstruction : Obligations.AssembledLinesDecodeToTheirInstruction := by
  intro l i hl hi
  have h := encode_of_assembled hl hi
  exact ⟨h ▸ decodeWord_encode i, h⟩

/-- Settles O1: the words are fixed, so the decoder runs on them. -/
theorem decodeReadsTheExampleWords : Obligations.DecodeReadsTheExampleWords := by
  unfold Obligations.DecodeReadsTheExampleWords
  decide

end Sys2Proof
end

section
/-! The invariant: construction meets it, every step and every host move keeps it (spec/10_state.md section 6,
spec/70_reset_and_hazards.md R150 to R157). -/

namespace Sys2Proof.Machine

/-! ### A step -/

/-- A step of a running machine ends in a fault taken in, or the completion of, a state that follows from its own. -/
theorem step_of_running_follows {s t : State} (hr : s.running = true) (h : step s = .next t) :
    ∃ v, Follows s v ∧ ((∃ f, t = takeFault f v) ∨ t = completeStep v) := by
  rcases step_of_running_cases hr h with ⟨f, u, hu, rfl⟩ | ⟨w, u, i, v, hf, -, hx, hv, rfl⟩
  · rcases hu with rfl | ⟨w, hf⟩
    · exact ⟨u, .refl u, .inl ⟨f, rfl⟩⟩
    · exact ⟨u, follows_memRead hf, .inl ⟨f, rfl⟩⟩
  · refine ⟨v, (follows_memRead hf).trans ?_, .inr rfl⟩
    rcases exec_cases i u with ⟨_, _, f, _, he⟩ | ⟨v', he, hfol⟩
    · rw [he] at hx; cases hx
      simp at hv
    · rw [he] at hx; cases hx
      exact hfol

theorem step_of_not_running {s : State} (h : s.running = false) : step s = .next s := by
  simp [step, h]

/-- Settles O21: what precedes the end of a step keeps the invariant, and so does each end; a fault is taken by a running
machine, which was started by run(). -/
theorem stepKeepsTheInvariant : Obligations.StepKeepsTheInvariant := by
  intro s t hs h
  cases hr : s.running
  · rw [step_of_not_running hr] at h; cases h
    exact hs
  · obtain ⟨v, hv, ⟨f, rfl⟩ | rfl⟩ := step_of_running_follows hr h
    · exact inv_takeFault f (hv.inv hs) (hv.runCalled.trans (hs.startedByRun (.inl hr)))
    · exact inv_completeStep (hv.inv hs)

/-- Settles O20: the ends of a step keep the configuration and the output too; an update keeps each device's entry. -/
theorem stepKeepsConfigurationAndOutput : Obligations.StepKeepsConfigurationAndOutput := by
  intro s t h
  cases hr : s.running
  · rw [step_of_not_running hr] at h; cases h
    exact ⟨rfl, rfl, rfl, [], (List.append_nil _).symm⟩
  · obtain ⟨v, hv, ⟨f, rfl⟩ | rfl⟩ := step_of_running_follows hr h
    · exact ⟨hv.map, hv.hooks, hv.entries, hv.out⟩
    · have hupdate : Device.entry ∘ Device.update = Device.entry := funext entry_update
      exact ⟨hv.map, hv.hooks, by rw [completeStep_devices, List.map_map, hupdate, hv.entries], hv.out⟩

/-! ### The host's moves -/

/-- A call whose fault returns to the caller answers what its success is turned into. -/
theorem callResult_map_done {α : Type} {e : Except Fault α} {g : α → HostReply × State} {t : State} {reply : HostReply}
    (h : callResult (e.map g) = .done t reply) : ∃ x, e = .ok x ∧ g x = (reply, t) := by
  cases e with
  | error f => cases h
  | ok x => exact ⟨x, rfl, by cases h; rfl⟩

theorem outcomeResult_done {o : Host.Outcome State Fault Refusal} {t : State} {reply : HostReply}
    (h : outcomeResult o = .done t reply) : o = .next t := by
  cases o <;> cases h
  rfl

/-- A load that answers is a bulk write at LOAD_ADDR. -/
theorem load_next {blob : List Byte} {s t : State} (h : load blob s = .next t) :
    writeBytes s.map.loadAddr blob s = .ok t := by
  unfold load at h
  split at h
  · cases h
  · split at h
    · cases h
    · split at h <;> cases h
      assumption

/-- A bulk write that answers changes RAM alone. -/
theorem writeBytes_frame {a : Word} {data : List Byte} {s t : State} (h : writeBytes a data s = .ok t) :
    ∃ ram, t = { s with ram := ram } := by
  unfold writeBytes at h
  split at h
  · cases h; exact ⟨s.ram, rfl⟩
  · split at h <;> cases h
    exact ⟨_, rfl⟩

/-- A register write that answers changes registers alone. -/
theorem setRegister_frame {i v : Word} {s t : State} (h : setRegister i v s = .ok t) : ∃ x, t = { s with x := x } := by
  unfold setRegister at h
  split at h <;> cases h
  exact ⟨_, rfl⟩

theorem startRun_of_fault {s : State} (h : s.fault ≠ none) : startRun s = s := by
  simp [startRun, Option.isSome_iff_ne_none.mpr h]

theorem startRun_of_no_fault {s : State} (h : s.fault = none) :
    startRun s = { s with running := true, runCalled := true } := by
  simp [startRun, h]

/-- What every host move keeps: the invariant, and the wiring of the hooks. -/
structure Keeps (s t : State) : Prop where
  inv : s.Inv → t.Inv
  hooks : t.hooks = s.hooks

theorem Keeps.refl (s : State) : Keeps s s := ⟨id, rfl⟩

theorem Follows.keeps {s t : State} (h : Follows s t) : Keeps s t := ⟨h.inv, h.hooks⟩

theorem keeps_step {s t : State} (h : step s = .next t) : Keeps s t :=
  ⟨fun hs => stepKeepsTheInvariant s t hs h, (stepKeepsConfigurationAndOutput s t h).2.1⟩

theorem keeps_writeBytes {a : Word} {data : List Byte} {s t : State} (h : writeBytes a data s = .ok t) : Keeps s t := by
  refine ⟨fun hs => inv_writeBytes hs h, ?_⟩
  obtain ⟨ram, rfl⟩ := writeBytes_frame h
  rfl

theorem keeps_startRun (s : State) : Keeps s (startRun s) := by
  by_cases hf : s.fault = none
  · rw [startRun_of_no_fault hf]
    exact ⟨fun hs => ⟨hs.mapWf, hs.ramWf, hs.ramInZone, hs.devicesWf, fun _ => hf, fun _ => rfl⟩, rfl⟩
  · rw [startRun_of_fault hf]
    exact .refl s

theorem keeps_stopRun (s : State) : Keeps s (stopRun s) where
  inv hs :=
    ⟨hs.mapWf, hs.ramWf, hs.ramInZone, hs.devicesWf, by simp, fun h => hs.startedByRun (.inr (by simpa using h))⟩
  hooks := rfl

theorem keeps_setRegister {i v : Word} {s t : State} (h : setRegister i v s = .ok t) : Keeps s t := by
  obtain ⟨x, rfl⟩ := setRegister_frame h
  exact ⟨fun hs => ⟨hs.mapWf, hs.ramWf, hs.ramInZone, hs.devicesWf, hs.runningNoFault, hs.startedByRun⟩, rfl⟩

theorem keeps_busRead (n : Width) (a : Word) (s : State) : Keeps s (busRead n a s).2 := by
  obtain ⟨ds, he, -, hw⟩ := busRead_frame n a s
  rw [he]
  exact ⟨fun hs => inv_of_devices hs ds s.out (hw hs.devicesWf), rfl⟩

theorem keeps_busWrite (n : Width) (a v : Word) (s : State) : Keeps s (busWrite n a v s) := by
  obtain ⟨ds, emitted, he, -, hw⟩ := busWrite_frame n a v s
  rw [he]
  exact ⟨fun hs => inv_of_devices hs ds _ (hw hs.devicesWf), rfl⟩

/-- A device of a list with one device reset is one of the list, or the reset of one. -/
theorem mem_modify_reset {ds : List Device} {k : Nat} {d : Device} (h : d ∈ ds.modify k Device.reset) :
    d ∈ ds ∨ ∃ e ∈ ds, d = e.reset := by
  obtain ⟨i, hi, rfl⟩ := List.mem_iff_getElem.mp h
  rw [List.getElem_modify]
  split
  · exact .inr ⟨_, List.getElem_mem _, rfl⟩
  · exact .inl (List.getElem_mem _)

theorem keeps_resetDevice (k : Nat) (s : State) : Keeps s (resetDevice k s) := by
  refine ⟨fun hs => inv_of_devices hs _ s.out fun d hd => ?_, rfl⟩
  rcases mem_modify_reset hd with hd | ⟨e, he, rfl⟩
  · exact hs.devicesWf d hd
  · exact wf_reset e (hs.devicesWf e he)

/-- Each move that answers keeps the invariant and the hooks. -/
theorem hostMove_keeps {m : HostMove} {reply : HostReply} {s t : State} (h : hostMove m s = .done t reply) :
    Keeps s t := by
  cases m with
  | load blob => exact keeps_writeBytes (load_next (outcomeResult_done h))
  | run => cases h; exact keeps_startRun s
  | step => exact keeps_step (outcomeResult_done h)
  | stop => cases h; exact keeps_stopRun s
  | getRegister i => obtain ⟨v, -, he⟩ := callResult_map_done h; cases he; exact .refl s
  | setRegister i v => obtain ⟨t', ht, he⟩ := callResult_map_done h; cases he; exact keeps_setRegister ht
  | routerRead n a => obtain ⟨r, hr, he⟩ := callResult_map_done h; cases he; exact (follows_memRead hr).keeps
  | routerWrite n a v => obtain ⟨t', ht, he⟩ := callResult_map_done h; cases he; exact (follows_memWrite ht).keeps
  | readBytes a length => obtain ⟨data, -, he⟩ := callResult_map_done h; cases he; exact .refl s
  | writeBytes a data => obtain ⟨t', ht, he⟩ := callResult_map_done h; cases he; exact keeps_writeBytes ht
  | busRead n a => cases h; exact keeps_busRead n a s
  | busWrite n a v => cases h; exact keeps_busWrite n a v s
  | registerDump => cases h; exact .refl s
  | memoryDump a length => obtain ⟨data, -, he⟩ := callResult_map_done h; cases he; exact .refl s
  | deviceDump k =>
    simp only [hostMove] at h
    split at h <;> cases h
    exact .refl s
  | deviceReset k =>
    simp only [hostMove] at h
    split at h <;> cases h
    exact keeps_resetDevice k s
  | readOut => cases h; exact .refl s

/-- Settles O22, move by move. -/
theorem hostMovesKeepTheInvariant : Obligations.HostMovesKeepTheInvariant := fun _ _ _ _ hs h =>
  (hostMove_keeps h).inv hs

/-! ### Construction -/

theorem construct_of_wf {c : Configuration} (h : c.wf = true) : construct c = .next (constructed c) := by
  simp [construct, h]

theorem construct_refused_iff (c : Configuration) : construct c = .refused .badConfiguration ↔ ¬ c.wf = true := by
  unfold construct
  split <;> simp_all

theorem construct_next {c : Configuration} {s : State} (h : construct c = .next s) : c.wf = true ∧ s = constructed c := by
  unfold construct at h
  split at h <;> cases h
  exact ⟨‹_›, rfl⟩

theorem configurationWf_iff (c : Configuration) :
    c.wf = true ↔ c.map.wf = true ∧ ∀ e ∈ c.devices, e.wf = true := by
  simp [Configuration.wf]

theorem inv_constructed {c : Configuration} (h : c.wf = true) : (constructed c).Inv := by
  obtain ⟨hm, hd⟩ := (configurationWf_iff c).mp h
  refine ⟨hm, rfl, fun _ hc => absurd hc List.not_mem_nil, fun d hmem => ?_, fun _ => rfl, fun hr => ?_⟩
  · obtain ⟨e, he, rfl⟩ := List.mem_map.mp hmem
    exact wf_constructDevice e (hd e he)
  · rcases hr with hr | hf
    · cases hr
    · exact absurd rfl hf

/-- A device as constructed is its own reset. -/
theorem reset_constructDevice (e : DeviceEntry) : (constructDevice e).reset = constructDevice e := by
  rw [reset_eq_constructDevice, entry_constructDevice]

theorem reset_of_mem_constructed {c : Configuration} {d : Device} (h : d ∈ (constructed c).devices) : d.reset = d := by
  obtain ⟨e, -, rfl⟩ := List.mem_map.mp h
  exact reset_constructDevice e

/-- Settles O7: REF is a configuration the model accepts. -/
theorem resetMeetsTheInvariant : Obligations.ResetMeetsTheInvariant :=
  inv_constructed (c := Config.ref) (by decide)

/-- Settles O6: the constructed state's fields, for any configuration accepted, REF among them. -/
theorem constructionSetsTheResetValues : Obligations.ConstructionSetsTheResetValues := by
  refine ⟨fun c hc => ⟨constructed c, construct_of_wf hc, fun r => ?_, rfl, rfl, rfl, rfl, fun _ => rfl, rfl, ?_,
    fun _ hd => reset_of_mem_constructed hd, rfl, rfl⟩, construct_of_wf (by decide)⟩
  · simp [State.getReg, constructed]
  · have hentry : Device.entry ∘ constructDevice = id := funext entry_constructDevice
    simp [constructed, hentry]

/-- The constraints of an entry, as facts about numbers. -/
theorem deviceEntryWf_iff (e : DeviceEntry) :
    e.wf = true ↔ e.base.toNat + e.size ≤ 2 ^ 32 ∧
      (∀ id, e.kind = .serial id → 0x10 ≤ e.size) ∧ (∀ id, e.kind = .network id → 0x14 ≤ e.size) := by
  simp only [DeviceEntry.wf, rangeOk, Bool.and_eq_true, decide_eq_true_eq]
  cases e.kind <;> simp [DeviceKind.sizeOk]

/-- Settles O8: the check of a configuration is its map's and its entries' constraints. -/
theorem onlyBadConfigurationsAreRefused : Obligations.OnlyBadConfigurationsAreRefused := by
  intro c
  rw [construct_refused_iff, configurationWf_iff, mapWf_iff]
  simp only [deviceEntryWf_iff, Nat.dvd_iff_mod_eq_zero, and_assoc]

/-! ### Every reachable state, and launch states -/

/-- Settles O23: construction gives the invariant and the six hooks, and every move keeps both. -/
theorem reachableStatesMeetTheInvariant : Obligations.ReachableStatesMeetTheInvariant := by
  intro s h
  induction h with
  | constructed c s hc =>
    obtain ⟨hw, rfl⟩ := construct_next hc
    exact ⟨inv_constructed hw, rfl⟩
  | moved m reply s t _ hm ih =>
    obtain ⟨hs, hc⟩ := ih
    have hk := hostMove_keeps hm
    exact ⟨hk.inv hs, hk.hooks.trans hc⟩

/-- Settles O42: a load changes RAM alone of the constructed state, and a preset registers alone. -/
theorem launchStatesAreFresh : Obligations.LaunchStatesAreFresh := by
  intro s h
  induction h with
  | loaded c blob s t hc hl =>
    obtain ⟨hw, rfl⟩ := construct_next hc
    have hi := (keeps_writeBytes (load_next hl)).inv (inv_constructed hw)
    obtain ⟨ram, rfl⟩ := writeBytes_frame (load_next hl)
    exact ⟨rfl, rfl, rfl, rfl, fun _ hd => reset_of_mem_constructed hd, rfl, hi⟩
  | preset i v s t _ hp ih =>
    obtain ⟨hfault, hrun, hcycles, hpc, hdev, hout, hi⟩ := ih
    have hi' := (keeps_setRegister hp).inv hi
    obtain ⟨x, rfl⟩ := setRegister_frame hp
    exact ⟨hfault, hrun, hcycles, hpc, hdev, hout, hi'⟩

end Sys2Proof.Machine
end

section
/-! The step by its case, and the Run Loop (spec/40_cycle.md R95 to R110, spec/60_exceptions.md R126 to R134). -/

namespace Sys2Proof.Machine

/-! ### The router's check -/

/-- The check never answers EmptyInput, which only the host's load raises (R129). -/
theorem kind_of_checkAccess {m : MemoryMap} {n : Width} {a : Word} {f : Fault} (h : checkAccess m n a = some f) :
    f.kind ≠ .emptyInput := by
  obtain ⟨-, rfl⟩ | ⟨-, -, rfl⟩ := checkAccess_some h
  · exact FaultKind.noConfusion
  · exact FaultKind.noConfusion

theorem kind_decodeFault (e : DecodeError) : (decodeFault e).kind ≠ .emptyInput := by
  cases e <;> exact FaultKind.noConfusion

/-- Settles O29, by the two checks in their order. -/
theorem rangeIsCheckedBeforeAlignment : Obligations.RangeIsCheckedBeforeAlignment := by
  intro m a
  have aligned_or {n : Width} (hv : isValidAddress m a = true) :
      checkAccess m n a = if a.toNat % n.bytes = 0 then none else some (.alignment a) := by
    split
    · exact checkAccess_none.mpr ⟨hv, ‹_›⟩
    · exact checkAccess_misaligned hv ‹_›
  refine ⟨fun n hv => checkAccess_invalid hv, fun hv => ⟨?_, aligned_or hv, aligned_or hv⟩⟩
  exact checkAccess_none.mpr ⟨hv, Nat.mod_one _⟩

/-- The sum of an address and an offset that does not wrap. -/
theorem toNat_add_ofNat {a : Word} {j : Nat} (h : a.toNat + j < 2 ^ 32) :
    (a + BitVec.ofNat 32 j).toNat = a.toNat + j := by
  rw [BitVec.toNat_add, BitVec.toNat_ofNat, Nat.add_mod_mod, Nat.mod_eq_of_lt h]

/-- A bound that is a multiple of 4 does not part the bytes of an aligned access. -/
theorem le_add_iff_of_aligned {n : Width} {a b j : Nat} (ha : a % n.bytes = 0) (hb : b % 4 = 0) (hj : j < n.bytes) :
    b ≤ a + j ↔ b ≤ a := by
  cases n <;> simp only [Width.bytes] at ha hj <;> omega

/-- Settles O30: the ends of both zones and of the address space are multiples of 4. -/
theorem alignedAccessStaysInOneZone : Obligations.AlignedAccessStaysInOneZone := by
  intro m n a hm hc
  obtain ⟨_, ha⟩ := checkAccess_none.mp hc
  obtain ⟨_, _, _, hdev, hram, hsize⟩ := (mapWf_iff m).mp hm
  have hend : a.toNat + n.bytes ≤ 2 ^ 32 := by
    have hpos : 0 < n.bytes := by cases n <;> decide
    have hlast := le_add_iff_of_aligned (b := 2 ^ 32) (j := n.bytes - 1) ha (by decide) (by omega)
    have hlt := a.isLt
    omega
  refine ⟨hend, fun j hj => ?_⟩
  have hsum := toNat_add_ofNat (a := a) (j := j) (by omega)
  have hdevBase := le_add_iff_of_aligned ha hdev hj
  have hramBase := le_add_iff_of_aligned ha hram hj
  have hramTop := le_add_iff_of_aligned (b := m.ramBase.toNat + m.ramSize) ha (by omega) hj
  constructor
  · rw [Bool.eq_iff_iff, isRAMAddress_iff, isRAMAddress_iff, hsum, ramEnd]
    omega
  · rw [Bool.eq_iff_iff, isPeripheralAddress_iff, isPeripheralAddress_iff, hsum]
    omega

/-! ### Fetch -/

theorem fetch_invalid {s : State} (h : isValidAddress s.map s.pc = false) : fetch s = .error (.outOfRange s.pc) :=
  memRead_of_check_some (checkAccess_invalid h)

theorem fetch_misaligned {s : State} (h : isValidAddress s.map s.pc = true) (ha : s.pc.toNat % 4 ≠ 0) :
    fetch s = .error (.alignment s.pc) :=
  memRead_of_check_some (checkAccess_misaligned h ha)

theorem fetch_ram {s : State} (h : isRAMAddress s.map s.pc = true) (ha : s.pc.toNat % 4 = 0) :
    fetch s = .ok (s.ram.read (s.pc.toNat + 3) ++ s.ram.read (s.pc.toNat + 2) ++ s.ram.read (s.pc.toNat + 1) ++
        s.ram.read s.pc.toNat, s) := by
  rw [← ramRead_w32]
  exact memRead_ram h ha

/-- A fetch changes devices alone. -/
theorem fetch_frame {s t : State} {w : Word} (h : fetch s = .ok (w, t)) : ∃ ds, t = { s with devices := ds } := by
  obtain ⟨ds, ht, -⟩ := memRead_ok_frame h
  exact ⟨ds, ht⟩

/-- Settles O13, by the router's read at the pc. -/
theorem fetchReadsThroughTheRouter : Obligations.FetchReadsThroughTheRouter := by
  refine fun s => ⟨fetch_invalid, fetch_misaligned, fetch_ram, fun hc hr hp ha => ?_⟩
  have hf : fetch s = .ok (busRead .w32 s.pc s) := memRead_device hc hr hp ha
  exact ⟨hf, fun hn => hf.trans (by rw [busRead_of_unmapped hn])⟩

/-! ### The step, by its case -/

theorem step_of_fetch_error {s : State} {f : Fault} (hr : s.running = true) (hf : fetch s = .error f) :
    step s = .next (takeFault f s) := by
  simp [step, hr, hf, raiseFault]

theorem step_of_decoded {s t : State} {w : Word} {i : Instr} (hr : s.running = true) (hf : fetch s = .ok (w, t))
    (hd : decodeWord w = .ok i) : step s = endStep (exec i t) := by
  simp [step, hr, hf, hd]

/-- Settles O9: what endStep does to each outcome. -/
theorem stepRunsTheDecodedInstruction : Obligations.StepRunsTheDecodedInstruction := by
  intro s t w i hr hf hd
  rw [step_of_decoded hr hf hd]
  cases exec i t <;> rfl

/-- Settles O12, by the cases of a step, each of which names its next state. -/
theorem everyStepAnswersANextState : Obligations.EveryStepAnswersANextState := by
  intro s
  rcases step_cases s with ⟨_, h⟩ | ⟨_, _, _, h⟩ | ⟨_, _, _, _, _, _, h⟩ | ⟨_, _, _, _, _, _, _, _, _, _, _, h⟩ |
    ⟨_, _, _, _, _, _, _, _, _, h⟩ <;> exact ⟨_, h⟩

/-- A running machine's step that leaves it not running took a fault that a step can raise, in its own state or in the one
the fetch left. -/
theorem step_faulting {s t : State} (hr : s.running = true) (h : step s = .next t) (ht : t.running = false) :
    ∃ f u, f.kind ≠ .emptyInput ∧ (u = s ∨ ∃ w, fetch s = .ok (w, u)) ∧ t = takeFault f u := by
  rcases step_cases s with ⟨hn, _⟩ | ⟨_, f, hf, he⟩ | ⟨_, w, u, e, hf, _, he⟩ |
    ⟨_, w, u, _, _, _, f, hf, _, hc, _, he⟩ | ⟨_, _, _, _, v, _, _, _, hv, he⟩
  · rw [hr] at hn; cases hn
  · rw [he] at h; cases h
    exact ⟨f, s, kind_of_checkAccess (memRead_error hf), .inl rfl, rfl⟩
  · rw [he] at h; cases h
    exact ⟨_, u, kind_decodeFault e, .inr ⟨w, hf⟩, rfl⟩
  · rw [he] at h; cases h
    exact ⟨f, u, kind_of_checkAccess hc, .inr ⟨w, hf⟩, rfl⟩
  · rw [he] at h; cases h
    rw [completeStep_running, hv] at ht; cases ht

/-- Settles O11: the fault is taken in the step's own state or in the one the fetch left, which differs in devices alone. -/
theorem faultingStepRecordsAndChangesNothingElse : Obligations.FaultingStepRecordsAndChangesNothingElse := by
  intro s t hr h ht
  obtain ⟨f, u, hk, rfl | ⟨w, hf⟩, rfl⟩ := step_faulting hr h ht
  · exact ⟨⟨f.kind, f.info, hk, rfl⟩, rfl, rfl, rfl, rfl, rfl, rfl, rfl, rfl, .inl rfl⟩
  · obtain ⟨ds, rfl⟩ := fetch_frame hf
    exact ⟨⟨f.kind, f.info, hk, rfl⟩, rfl, rfl, rfl, rfl, rfl, rfl, rfl, rfl, .inr ⟨w, _, hf, rfl⟩⟩

/-- A running machine's step that leaves it running completed the instruction fetched. -/
theorem step_completing {s t : State} (hr : s.running = true) (h : step s = .next t) (ht : t.running = true) :
    ∃ w u i v, fetch s = .ok (w, u) ∧ decodeWord w = .ok i ∧ exec i u = .next v ∧ v.running = true ∧
      t = completeStep v := by
  rcases step_of_running_cases hr h with ⟨f, u, -, rfl⟩ | hc
  · rw [takeFault_running] at ht; cases ht
  · exact hc

/-! ### A fault of LOAD or STORE inside a step -/

/-- A data fault: LOAD and STORE alike take what the router's check answers of the effective address. -/
theorem exec_data_fault {i : Instr} {s : State} {a b : Reg} {imm8 : Byte} {f : Fault}
    (hi : i = .load a b imm8 ∨ i = .store a b imm8) (hc : checkAccess s.map .w32 (effectiveAddress b imm8 s) = some f) :
    exec i s = .next (takeFault f s) := by
  rcases hi with rfl | rfl
  · exact exec_load_of_error (memRead_of_check_some hc)
  · exact exec_store_of_error (memWrite_of_check_some hc)

theorem step_data_fault {s : State} {w : Word} {ds : List Device} {i : Instr} {a b : Reg} {imm8 : Byte} {f : Fault}
    (hr : s.running = true) (hf : fetch s = .ok (w, { s with devices := ds })) (hd : decodeWord w = .ok i)
    (hi : i = .load a b imm8 ∨ i = .store a b imm8) (hc : checkAccess s.map .w32 (effectiveAddress b imm8 s) = some f) :
    step s = .next (takeFault f { s with devices := ds }) := by
  rw [step_of_decoded hr hf hd, exec_data_fault (s := { s with devices := ds }) hi hc]
  rfl

/-- Settles O14: the fetch's fault is taken in the step's own state, a data fault in the one the fetch left, whose registers,
map, count and pc are those before the step. -/
theorem fetchFaultsBecomeTheRecord : Obligations.FetchFaultsBecomeTheRecord := by
  intro s hr
  refine ⟨fun hv => step_of_fetch_error hr (fetch_invalid hv), fun hv ha => step_of_fetch_error hr (fetch_misaligned hv ha),
    fun w ea t a b imm8 hf hd hea => ?_⟩
  subst hea
  obtain ⟨ds, rfl⟩ := fetch_frame hf
  obtain ⟨i, hd, hi⟩ : ∃ i, decodeWord w = .ok i ∧ (i = .load a b imm8 ∨ i = .store a b imm8) :=
    hd.elim (fun h => ⟨_, h, .inl rfl⟩) fun h => ⟨_, h, .inr rfl⟩
  exact ⟨fun hv => step_data_fault hr hf hd hi (checkAccess_invalid hv),
    fun hv ha => step_data_fault hr hf hd hi (checkAccess_misaligned hv ha)⟩

/-! ### The Run Loop -/

/-- Settles O15: a faulted machine is not running, by the invariant, and run() looks at the record first. -/
theorem stoppedAndFaultedMachinesStay : Obligations.StoppedAndFaultedMachinesStay := by
  refine ⟨fun s => step_of_not_running, fun s hs hf => ⟨step_of_not_running ?_, startRun_of_fault hf, fun fuel => ?_⟩⟩
  · exact Bool.eq_false_iff.mpr fun hr => hf (hs.runningNoFault hr)
  · simp [run, Option.isSome_iff_ne_none.mpr hf]

theorem runLoop_of_step {s t : State} (fuel : Nat) (hr : s.running = true) (h : step s = .next t) :
    runLoop (fuel + 1) s = runLoop fuel t := by
  simp [runLoop, hr, h]

/-- Settles O17: with no fault run() is the loop from the started state. -/
theorem runStartsAMachineWithoutFault : Obligations.RunStartsAMachineWithoutFault := by
  refine fun s hf => ⟨startRun_of_no_fault hf, fun fuel t ht => ?_⟩
  rw [run, if_neg (by simp [hf]), startRun_of_no_fault hf, runLoop_of_step fuel rfl ht]

/-- Settles O18, by induction on the steps: every step but the last completed, since the next began running. -/
theorem cyclesCountTheCompletedSteps : Obligations.CyclesCountTheCompletedSteps := by
  intro n s t h
  induction h with
  | zero s => exact ⟨fun _ => (BitVec.add_zero _).symm, fun _ h0 => absurd h0 (Nat.lt_irrefl 0)⟩
  | succ n s t u _ hr hu ih =>
    obtain ⟨hrun, _⟩ := ih
    obtain ⟨hcompleted, hfaulted⟩ := completedStepCountsAndUpdatesEveryDevice t u hr hu
    constructor
    · intro hur
      obtain ⟨_, _, _, _, _, _, _, hc, _⟩ := hcompleted hur
      rw [hc, hrun hr, BitVec.add_assoc, BitVec.ofNat_add]
      rfl
    · intro hur _
      rw [(hfaulted hur).1, hrun hr, Nat.add_sub_cancel]

/-- The last of the steps that end not running took a fault, whose record holds the count and the pc it left. -/
theorem stepsTo_faulted {n : Nat} {s t : State} (h : StepsTo n s t) (hn : 0 < n) (ht : t.running = false) :
    ∃ kind info, t.fault = some ⟨kind, t.cycles, t.pc, info⟩ := by
  cases h with
  | zero => exact absurd hn (Nat.lt_irrefl 0)
  | succ n _ u _ _ hr hu =>
    obtain ⟨⟨kind, info, -, hf⟩, -, hpc, -, hcycles, -⟩ := faultingStepRecordsAndChangesNothingElse u t hr hu ht
    exact ⟨kind, info, by rw [hf, hcycles, hpc]⟩

/-- Settles O19: the run ended at the last step's own state, or at a stop() after it; a stop() of a machine not running
is the first case again. -/
theorem runsEndOnlyByFaultOrStop : Obligations.RunsEndOnlyByFaultOrStop := by
  rintro n s t ⟨hn, ht, u, hu, hend⟩
  refine ⟨step_of_not_running ht, ?_⟩
  cases hur : u.running
  · obtain rfl : t = u := hend.elim id fun h => h.trans (stopRun_of_not_running hur)
    exact .inl ⟨hu, stepsTo_faulted hu hn ht⟩
  · rcases hend with rfl | rfl
    · rw [hur] at ht; cases ht
    · exact .inr ⟨u, hu, hur, rfl⟩

end Sys2Proof.Machine
end

section
/-! The fetch-alignment hazard (spec/70_reset_and_hazards.md R158): where the pc stands after an instruction that completes,
and whether the next fetch can be there. -/

namespace Sys2Proof.Machine

/-- LOAD, STORE, ADD, SUB, MOV and NOP: the operations that only advance the pc. -/
def Sequential : Instr → Prop
  | .jump _ => False
  | .branchEq _ _ _ => False
  | _ => True

theorem sequential_or_control (i : Instr) :
    Sequential i ∨ (∃ a, i = .jump a) ∨ ∃ a b imm8, i = .branchEq a b imm8 := by
  cases i with
  | jump a => exact .inr (.inl ⟨a, rfl⟩)
  | branchEq a b imm8 => exact .inr (.inr ⟨a, b, imm8, rfl⟩)
  | _ => exact .inl trivial

/-- A sequential operation that goes on advances the pc by 2. -/
theorem exec_sequential_pc {i : Instr} {s t : State} (hi : Sequential i) (h : exec i s = .next t)
    (ht : t.running = true) : t.pc = s.pc + 2 := by
  cases i with
  | load a b imm8 =>
    cases hm : memRead .w32 (effectiveAddress b imm8 s) s with
    | error f => rw [exec_load_of_error hm] at h; cases h; cases ht
    | ok p => obtain ⟨v, u⟩ := p; rw [exec_load_of_ok hm] at h; cases h; simp [memRead_pc hm]
  | store a b imm8 =>
    cases hm : memWrite .w32 (effectiveAddress b imm8 s) (s.getReg a) s with
    | error f => rw [exec_store_of_error hm] at h; cases h; cases ht
    | ok u => rw [exec_store_of_ok hm] at h; cases h; simp [memWrite_pc hm]
  | add a b c => cases h; rfl
  | sub a b c => cases h; rfl
  | mov a b => cases h; rfl
  | jump a => exact hi.elim
  | branchEq a b imm8 => exact hi.elim
  | nop => cases h; rfl

theorem toNat_add_two {a : Word} (ha : a.toNat % 4 = 0) : (a + 2).toNat = a.toNat + 2 :=
  toNat_add_ofNat (j := 2) (by have := a.isLt; omega)

/-- The address 2 above one that a fetch can read is valid and not a multiple of 4. -/
theorem valid_misaligned_add_two {m : MemoryMap} {a : Word} (hm : m.wf = true) (hv : isValidAddress m a = true)
    (ha : a.toNat % 4 = 0) : isValidAddress m (a + 2) = true ∧ (a + 2).toNat % 4 ≠ 0 := by
  obtain ⟨-, hzone⟩ := alignedAccessStaysInOneZone m .w32 a hm (checkAccess_none.mpr ⟨hv, ha⟩)
  obtain ⟨hram, hdev⟩ := hzone 2 (by decide)
  constructor
  · rw [isValidAddress] at hv ⊢
    rw [← hram, ← hdev] at hv
    exact hv
  · rw [toNat_add_two ha]
    omega

/-- A step leaves the map. -/
theorem step_map {s t : State} (h : step s = .next t) : t.map = s.map := (stepKeepsConfigurationAndOutput s t h).1

/-- Settles O24: the pc after the step is 2 above an aligned pc, where the fetch answers Alignment. -/
theorem sequentialInstructionIsTheLastOfItsRun : Obligations.SequentialInstructionIsTheLastOfItsRun := by
  intro s t u w i hs hr hf hd hi h ht
  obtain ⟨w', u', i', v, hf', hd', hx, hv, hend⟩ := step_completing hr h ht
  rw [hf] at hf'; cases hf'
  rw [hd] at hd'; cases hd'
  have hpc : t.pc = s.pc + 2 := by
    rw [hend, completeStep_pc, exec_sequential_pc (by cases i <;> exact hi) hx hv, fetch_pc hf]
  obtain ⟨hvalid, haligned⟩ := pc_of_fetch hf
  obtain ⟨hvalid', hmis⟩ := valid_misaligned_add_two hs.mapWf hvalid haligned
  rw [← step_map h, ← hpc] at hvalid'
  rw [← hpc] at hmis ⊢
  exact ⟨rfl, step_of_fetch_error ht (fetch_misaligned hvalid' hmis)⟩

/-- The sign extension of a byte has the byte's parity. -/
theorem toNat_signExtend_mod_two (imm8 : Byte) : (imm8.signExtend 32).toNat % 2 = imm8.toNat % 2 := by
  rw [BitVec.toNat_signExtend, BitVec.toNat_setWidth]
  split <;> omega

/-- A taken branch from an aligned pc to an aligned target has an odd offset: the trailing advance adds 2. -/
theorem odd_of_branch_aligned {p : Word} {imm8 : Byte} (hp : p.toNat % 4 = 0)
    (ht : (p + branchOffset imm8 + 2).toNat % 4 = 0) : imm8.toNat % 2 = 1 := by
  have hparity := toNat_signExtend_mod_two imm8
  simp only [branchOffset, signExtended, BitVec.toNat_add, BitVec.toNat_mul, BitVec.reduceToNat] at ht
  omega

/-- Settles O25: a step that completes fetched at an aligned pc, so the pc that the first instruction left is aligned, and so
is the pc it started from. -/
theorem runsGoOnOnlyThroughJumpsAndOddBranches : Obligations.RunsGoOnOnlyThroughJumpsAndOddBranches := by
  intro s t u hs hr h ht hu hur
  obtain ⟨w, x, i, v, hf, hd, hx, hv, rfl⟩ := step_completing hr h ht
  obtain ⟨_, _, _, _, hf', -, -, -, -⟩ := step_completing ht hu hur
  obtain ⟨-, hnext⟩ := pc_of_fetch hf'
  obtain ⟨-, hhere⟩ := pc_of_fetch hf
  obtain ⟨ds, rfl⟩ := fetch_frame hf
  have hadvance : v.pc ≠ s.pc + 2 := fun hpc => by
    rw [completeStep_pc, hpc, toNat_add_two hhere] at hnext
    omega
  refine ⟨w, _, hf, ?_⟩
  rcases sequential_or_control i with hi | ⟨a, rfl⟩ | ⟨a, b, imm8, rfl⟩
  · exact absurd (exec_sequential_pc hi hx hv) hadvance
  · cases hx
    exact .inl ⟨a, hd, hnext⟩
  · by_cases hab : s.getReg a = s.getReg b
    · rw [exec_branchEq_of_eq (s := { s with devices := ds }) hab] at hx; cases hx
      exact .inr ⟨a, b, imm8, hd, hab, odd_of_branch_aligned hhere hnext⟩
    · rw [exec_branchEq_of_ne (s := { s with devices := ds }) hab] at hx; cases hx
      exact absurd rfl hadvance

end Sys2Proof.Machine
end

section
/-! RAM at every width, the devices' composed accesses, and the host's calls (spec/20_memory.md R50, R53, R54, R61, R62,
spec/60_exceptions.md R126, spec/70_reset_and_hazards.md R153, R156). -/

namespace Sys2Proof.Machine

/-! ### RAM at every width -/

/-- Two neighbouring bytes of a word are the half they make up. -/
theorem append_extractLsb' (v : Word) (start : Nat) :
    v.extractLsb' (start + 8) 8 ++ v.extractLsb' start 8 = v.extractLsb' start 16 :=
  BitVec.extractLsb'_append_extractLsb'_eq_extractLsb' rfl

/-- A byte read of RAM is never misaligned. -/
theorem memRead_byte {a : Word} {s : State} (h : isRAMAddress s.map a = true) :
    memRead .w8 a s = .ok ((s.ram.read a.toNat).setWidth 32, s) := by
  rw [memRead_ram h (Nat.mod_one _), ramRead_w8]

theorem memRead_half {a : Word} {s : State} (h : isRAMAddress s.map a = true) (ha : a.toNat % 2 = 0) :
    memRead .w16 a s = .ok ((s.ram.read (a.toNat + 1) ++ s.ram.read a.toNat).setWidth 32, s) := by
  rw [← ramRead_w16]
  exact memRead_ram h ha

/-- Settles O31: the four bytes lie in RAM with the first, and each is the word's byte of its place. -/
theorem storedWordReadsBackAtEveryWidth : Obligations.StoredWordReadsBackAtEveryWidth := by
  intro a v s hs hr
  constructor
  · intro ha
    have hpass : checkAccess s.map .w32 a = none := checkAccess_none.mpr ⟨valid_of_ram hr, ha⟩
    obtain ⟨hend, hzone⟩ := alignedAccessStaysInOneZone s.map .w32 a hs.mapWf hpass
    simp only [Width.bytes] at hend hzone
    have hram {j : Nat} (hj : j < 4) : isRAMAddress (ramWrite .w32 a v s).map (a + BitVec.ofNat 32 j) = true :=
      (hzone j hj).1.trans hr
    have hsum {j : Nat} (hj : j < 4) : (a + BitVec.ofNat 32 j).toNat = a.toNat + j := toNat_add_ofNat (by omega)
    have hbyte {j : Nat} (hj : j < 4) : (ramWrite .w32 a v s).ram.read (a.toNat + j) = v.extractLsb' (8 * j) 8 :=
      read_ramWrite_inside hs.ramWf hj
    have hbyte0 : (ramWrite .w32 a v s).ram.read a.toNat = v.extractLsb' 0 8 := hbyte (j := 0) (by decide)
    have hsum2 : (a + 2).toNat = a.toNat + 2 := hsum (j := 2) (by decide)
    have hram2 : isRAMAddress (ramWrite .w32 a v s).map (a + 2) = true := hram (j := 2) (by decide)
    refine ⟨ramWrite .w32 a v s, memWrite_ram hr ha, fun j hj => ?_, ?_, ?_⟩
    · rw [memRead_byte (hram hj), hsum hj, hbyte hj]
    · rw [memRead_half (s := ramWrite .w32 a v s) hr (by omega), hbyte (j := 1) (by decide), hbyte0,
        append_extractLsb' v 0]
    · rw [memRead_half hram2 (by omega), hsum2, hbyte (j := 3) (by decide), hbyte (j := 2) (by decide),
        append_extractLsb' v 16]
  · refine ⟨ramWrite .w8 a v s, memWrite_ram hr (Nat.mod_one _), ?_⟩
    rw [memRead_byte (s := ramWrite .w8 a v s) hr]
    exact congrArg (fun b : Byte => Except.ok (b.setWidth 32, ramWrite .w8 a v s))
      (read_ramWrite_inside (j := 0) hs.ramWf (by decide))

/-! ### A device's composed accesses -/

/-- The bytes of a word, least significant first. -/
theorem splitLE_eq_map (n : Nat) (v : Word) : splitLE n v = (List.range n).map fun j => v.extractLsb' (8 * j) 8 := by
  apply List.ext_getElem (by simp)
  intro j h1 h2
  rw [← List.getD_eq_getElem _ 0 h1, getD_splitLE n v j (by simpa using h1)]
  simp

/-- Settles O35: reading is composing the bytes read in turn, writing is writing the word's bytes in turn. -/
theorem deviceAccessesComposeByteOperations : Obligations.DeviceAccessesComposeByteOperations := by
  intro d o v
  refine ⟨?_, ?_, ?_, ?_⟩
  · simp [Device.read, Width.bytes, Device.readSeq, composeLE]
  · simp [Device.read, Width.bytes, Device.readSeq, composeLE, BitVec.shiftLeft_or_distrib, BitVec.or_assoc,
      BitVec.add_assoc]
  · simp [Device.write, Width.bytes, splitLE_eq_map, List.range_succ, Device.writeSeq]
  · simp [Device.write, Width.bytes, splitLE_eq_map, List.range_succ, Device.writeSeq, BitVec.add_assoc]

/-! ### Bulk operations -/

section
variable {a : Word} {data : List Byte} {len : Nat} {s : State}

theorem writeBytes_nil (a : Word) (s : State) : writeBytes a [] s = .ok s := rfl

theorem readBytes_zero (a : Word) (s : State) : readBytes a 0 s = .ok [] := rfl

theorem writeBytes_of_inRAM (hd : data ≠ []) (h : bulkInRAM s.map a data.length = true) :
    writeBytes a data s = .ok { s with ram := s.ram.writeBytes a.toNat data } := by
  simp [writeBytes, hd, h]

theorem writeBytes_of_not_inRAM (hd : data ≠ []) (h : bulkInRAM s.map a data.length = false) :
    writeBytes a data s = .error (.outOfRange a) := by
  simp [writeBytes, hd, h]

theorem readBytes_of_inRAM (h : bulkInRAM s.map a len = true) : readBytes a len s = .ok (s.ram.readBytes a.toNat len) := by
  by_cases h0 : len = 0
  · subst h0; rfl
  · simp [readBytes, h0, h]

theorem readBytes_of_not_inRAM (h0 : len ≠ 0) (h : bulkInRAM s.map a len = false) :
    readBytes a len s = .error (.outOfRange a) := by
  simp [readBytes, h0, h]

end

/-- The bytes outside a written range stay. -/
theorem read_writeBytes_outside {m : Memory} {a k : Nat} {vs : List Byte} (hm : Memory.wf m = true)
    (hk : k < a ∨ a + vs.length ≤ k) : (m.writeBytes a vs).read k = m.read k := by
  rw [read_writeBytes a k vs hm, if_neg (by omega)]

/-- Settles O38: the check of the two ends decides, and inside RAM the range written reads back. -/
theorem bulkOperationsStayInRAM : Obligations.BulkOperationsStayInRAM := by
  intro a data s hw hm
  refine ⟨fun hd => ⟨hd ▸ writeBytes_nil a s, readBytes_zero a s⟩, fun hd hr hl => ?_, fun hd hn => ?_⟩
  · have hb := (bulkInRAM_iff hm (List.length_pos_iff.mpr hd)).mpr ⟨hr, hl⟩
    refine ⟨_, writeBytes_of_inRAM hd hb, ?_, fun k hk => read_writeBytes_outside hw hk⟩
    rw [readBytes_of_inRAM (s := { s with ram := s.ram.writeBytes a.toNat data }) hb, readBytes_writeBytes _ _ hw]
  · have hlen := List.length_pos_iff.mpr hd
    have hb : bulkInRAM s.map a data.length = false :=
      Bool.eq_false_iff.mpr fun hb => hn ((bulkInRAM_iff hm hlen).mp hb)
    exact ⟨writeBytes_of_not_inRAM hd hb, readBytes_of_not_inRAM (by omega) hb⟩

/-! ### load -/

theorem load_of_runCalled {blob : List Byte} {s : State} (h : s.runCalled = true) : load blob s = .refused .loadAfterRun := by
  simp [load, h]

theorem load_nil {s : State} (h : s.runCalled = false) : load [] s = .fault .emptyInput := by
  simp [load, h]

theorem load_of_ok {blob : List Byte} {s t : State} (h : s.runCalled = false) (hb : blob ≠ [])
    (hw : writeBytes s.map.loadAddr blob s = .ok t) : load blob s = .next t := by
  simp [load, h, hb, hw]

theorem load_of_error {blob : List Byte} {s : State} {f : Fault} (h : s.runCalled = false) (hb : blob ≠ [])
    (hw : writeBytes s.map.loadAddr blob s = .error f) : load blob s = .fault f := by
  simp [load, h, hb, hw]

/-- Settles O39: a load is a bulk write at LOAD_ADDR, once the two refusals are past. -/
theorem loadWritesTheBlobAtLoadAddress : Obligations.LoadWritesTheBlobAtLoadAddress := by
  intro blob s hs
  refine ⟨load_of_runCalled, fun hc hb => hb ▸ load_nil hc, fun hc hb => ⟨fun hr hl => ?_, fun hn => ?_⟩⟩
  · have hin := (bulkInRAM_iff hs.mapWf (List.length_pos_iff.mpr hb)).mpr ⟨hr, hl⟩
    exact ⟨_, load_of_ok hc hb (writeBytes_of_inRAM hb hin), readBytes_writeBytes _ _ hs.ramWf,
      fun k hk => read_writeBytes_outside hs.ramWf hk⟩
  · obtain ⟨-, -, hout⟩ := bulkOperationsStayInRAM s.map.loadAddr blob s hs.ramWf hs.mapWf
    exact load_of_error hc hb (hout hb hn).1

/-! ### The register accessor -/

/-- Settles O40, by the check of the index. -/
theorem registerAccessorChecksTheIndex : Obligations.RegisterAccessorChecksTheIndex := by
  intro i v s
  constructor
  · intro h
    simp [getRegister, setRegister, State.getReg, State.setReg, h, Nat.mod_eq_of_lt h]
  · intro h
    simp [getRegister, setRegister, Nat.not_lt.mpr h]

/-! ### OutOfRange -/

/-- A call whose fault returns to the caller answers the fault. -/
theorem callResult_map_error {α : Type} {e : Except Fault α} {g : α → HostReply × State} {f : Fault} (h : e = .error f) :
    callResult (e.map g) = .toCaller f := by
  rw [h]; rfl

/-- The bulk check as it is written: both ends are RAM, the second computed without wrap (R53). -/
theorem bulkInRAM_ends {m : MemoryMap} {a : Word} {len : Nat} :
    bulkInRAM m a len = true ↔ isRAMAddress m a = true ∧ a.toNat + len - 1 < 2 ^ 32 ∧
      isRAMAddress m (BitVec.ofNat 32 (a.toNat + len - 1)) = true := by
  simp only [bulkInRAM, Bool.and_eq_true, decide_eq_true_eq]
  tauto

/-- Settles O41: the router's check answers the first three cases, the bulk check and the accessor's index the others. -/
theorem outOfRangeIsRaisedInEveryListedCase : Obligations.OutOfRangeIsRaisedInEveryListedCase := by
  intro s n a v i ra rb imm8 data
  refine ⟨fetch_invalid, fun h => ⟨?_, ?_⟩, fun h => ⟨?_, ?_⟩, fun hd hn => ?_, fun hi => ?_⟩
  · exact exec_data_fault (.inl rfl) (checkAccess_invalid h)
  · exact exec_data_fault (.inr rfl) (checkAccess_invalid h)
  · exact callResult_map_error (memRead_of_check_some (checkAccess_invalid h))
  · exact callResult_map_error (memWrite_of_check_some (checkAccess_invalid h))
  · have hb : bulkInRAM s.map a data.length = false := Bool.eq_false_iff.mpr (mt bulkInRAM_ends.mp hn)
    have hlen : data.length ≠ 0 := mt List.length_eq_zero_iff.mp hd
    exact ⟨callResult_map_error (writeBytes_of_not_inRAM hd hb), callResult_map_error (readBytes_of_not_inRAM hlen hb)⟩
  · obtain ⟨-, hout⟩ := registerAccessorChecksTheIndex i v s
    obtain ⟨hget, hset⟩ := hout hi
    exact ⟨callResult_map_error hget, callResult_map_error hset⟩

end Sys2Proof.Machine
end

section
/-! The instructions: what each does in every state, and what it leaves (spec/41_load_store.md, spec/42_arith.md,
spec/43_control.md). -/

namespace Sys2Proof.Machine

/-! ### Registers and arithmetic -/

/-- Settles O43: no register is set apart. -/
theorem everyRegisterHoldsItsLastWrite : Obligations.EveryRegisterHoldsItsLastWrite := fun s r q v =>
  ⟨getReg_setReg_same s r v, getReg_setReg_other s r q v⟩

theorem wrappedSum_eq (u v : Word) : wrappedSum u v = BitVec.ofNat 32 ((u.toNat + v.toNat) % 2 ^ 32) := by
  apply BitVec.eq_of_toNat_eq
  simp [wrappedSum]

theorem wrappedDifference_eq (u v : Word) : wrappedDifference u v = BitVec.ofInt 32 ((u.toNat : Int) - (v.toNat : Int)) := by
  have hu := u.isLt
  have hv := v.isLt
  apply BitVec.eq_of_toNat_eq
  rw [wrappedDifference, BitVec.toNat_sub, BitVec.toNat_ofInt]
  omega

/-- Settles O45, by the sum. -/
theorem addWritesTheWrappedSum : Obligations.AddWritesTheWrappedSum := fun a b c s => by
  rw [← wrappedSum_eq]; rfl

/-- Settles O46, by the difference. -/
theorem subWritesTheWrappedDifference : Obligations.SubWritesTheWrappedDifference := fun a b c s => by
  rw [← wrappedDifference_eq]; rfl

/-- Settles O47: MOV is a register write and an advance. -/
theorem movCopiesTheRegister : Obligations.MovCopiesTheRegister := fun _ _ _ => rfl

/-- Settles O48: JUMP sets the pc alone. -/
theorem jumpGoesToTheRegister : Obligations.JumpGoesToTheRegister := fun _ _ => rfl

/-- Settles O50: NOP is the advance alone. -/
theorem nopOnlyAdvances : Obligations.NopOnlyAdvances := fun _ => rfl

/-- The branch target by integer arithmetic. -/
theorem branchTarget_eq (p : Word) (imm8 : Byte) :
    p + branchOffset imm8 + 2 = BitVec.ofInt 32 ((p.toNat : Int) + imm8.toInt * 2 + 2) := by
  rw [BitVec.ofInt_add, BitVec.ofInt_add, BitVec.ofInt_mul, BitVec.ofInt_natCast, BitVec.ofNat_toNat, BitVec.setWidth_eq]
  rfl

/-- Settles O49, by the comparison. -/
theorem branchEqMovesThePc : Obligations.BranchEqMovesThePc := by
  intro a b imm8 s
  by_cases h : s.getReg a = s.getReg b
  · rw [exec_branchEq_of_eq h, if_pos h, ← branchTarget_eq]; rfl
  · rw [exec_branchEq_of_ne h, if_neg h]; rfl

/-! ### LOAD and STORE -/

theorem effectiveAddress_eq (b : Reg) (imm8 : Byte) (s : State) :
    effectiveAddress b imm8 s = BitVec.ofNat 32 (((s.getReg b).toNat + imm8.toNat) % 2 ^ 32) := by
  have himm : (imm8.setWidth 32).toNat = imm8.toNat := BitVec.toNat_setWidth_of_le (by omega)
  rw [← himm]
  exact wrappedSum_eq _ _

/-- Settles O51, by the router's read of RAM. -/
theorem loadReadsAWordOfRAM : Obligations.LoadReadsAWordOfRAM := by
  intro a b imm8 s ea hea hr ha
  rw [← effectiveAddress_eq] at hea
  subst hea
  rw [exec_load_of_ok (memRead_ram hr ha), ramRead_w32]
  rfl

/-- Settles O52, by the bus's read of the device that resolves. -/
theorem loadReadsADevice : Obligations.LoadReadsADevice := by
  intro a b imm8 s k d hc hr hp ha hk hd
  have hread := memRead_device (n := .w32) hc hr hp ha
  rw [busRead_of_resolved hk hd] at hread
  rw [exec_load_of_ok hread]
  rfl

/-- Settles O53, by the router's write of RAM, byte by byte. -/
theorem storeWritesAWordOfRAM : Obligations.StoreWritesAWordOfRAM := by
  intro a b imm8 s ea hw hea hr ha
  rw [← effectiveAddress_eq] at hea
  subst hea
  have hbyte {j : Nat} (hj : j < 4) := read_ramWrite_inside (n := .w32) (a := effectiveAddress b imm8 s)
    (v := s.getReg a) hw hj
  refine ⟨_, (exec_store_of_ok (memWrite_ram hr ha)).trans rfl, hbyte (j := 0) (by decide), hbyte (j := 1) (by decide),
    hbyte (j := 2) (by decide), hbyte (j := 3) (by decide), fun k hk => read_ramWrite_outside hw hk⟩

/-- Settles O54, by the bus's write of the device that resolves. -/
theorem storeWritesADevice : Obligations.StoreWritesADevice := by
  intro a b imm8 s k d hc hr hp ha hk hd
  have hwrite := memWrite_device (n := .w32) (v := s.getReg a) hc hr hp ha
  rw [busWrite_of_resolved hk hd] at hwrite
  rw [exec_store_of_ok hwrite]
  rfl

/-- Settles O34: where no device resolves the bus reads 0 and writes nothing. -/
theorem unmappedDeviceAccessCompletes : Obligations.UnmappedDeviceAccessCompletes := by
  intro ra rb imm8 s hc hr hp ha hn
  have hread := memRead_device (n := .w32) hc hr hp ha
  have hwrite := memWrite_device (n := .w32) (v := s.getReg ra) hc hr hp ha
  rw [busRead_of_unmapped hn] at hread
  rw [busWrite_of_unmapped hn] at hwrite
  exact ⟨exec_load_of_ok hread, exec_store_of_ok hwrite⟩

/-- Settles O55: the router's check of the effective address is the fault taken. -/
theorem loadAndStoreTrapOnABadAddress : Obligations.LoadAndStoreTrapOnABadAddress := by
  intro a b imm8 s ea hea
  subst hea
  refine ⟨fun hv => ?_, fun hv ha => ?_⟩
  · have hc := checkAccess_invalid (n := .w32) hv
    exact ⟨exec_data_fault (.inl rfl) hc, exec_data_fault (.inr rfl) hc⟩
  · have hc := checkAccess_misaligned (n := .w32) hv ha
    exact ⟨exec_data_fault (.inl rfl) hc, exec_data_fault (.inr rfl) hc⟩

/-- Settles O60: the bytes a fetch reads there are the ones stored, and together they are the word. -/
theorem storedWordIsTheWordFetched : Obligations.StoredWordIsTheWordFetched := by
  intro a b imm8 s t u hs hr ha h hram hmap hpc
  obtain ⟨ram, hx, h0, h1, h2, h3, -⟩ :=
    storeWritesAWordOfRAM a b imm8 s _ hs.ramWf (effectiveAddress_eq b imm8 s) hr ha
  rw [hx] at h; cases h
  rw [← hpc] at hr ha h0 h1 h2 h3
  rw [fetch_ram (hmap ▸ hr) ha, hram, h0, h1, h2, h3]
  exact congrArg (fun w => Except.ok (w, u)) (wordOfBytes_bytesOfWord (s.getReg a))

/-! ### Frames -/

/-- Settles O56: each of the three is a register write and an advance. -/
theorem registerInstructionsFrame : Obligations.RegisterInstructionsFrame := by
  intro a b c s t h
  obtain ⟨v, rfl⟩ : ∃ v, t = (s.setReg a v).advance := by
    rcases h with h | h | h <;> cases h <;> exact ⟨_, rfl⟩
  exact ⟨fun q hq => getReg_setReg_other s a q v hq, fun _ => rfl, rfl, rfl, rfl, rfl, rfl, rfl, rfl, rfl⟩

/-- Settles O57: each of the three sets the pc alone. -/
theorem controlInstructionsFrame : Obligations.ControlInstructionsFrame := by
  intro a b imm8 s t h
  obtain ⟨p, rfl⟩ : ∃ p, t = s.setPc p := by
    rcases h with h | h | h
    · cases h; exact ⟨_, rfl⟩
    · rw [branchEqMovesThePc] at h; cases h; exact ⟨_, rfl⟩
    · cases h; exact ⟨_, rfl⟩
  exact ⟨fun _ => rfl, fun _ => rfl, rfl, rfl, rfl, rfl, rfl, rfl, rfl, rfl⟩

/-- The bus changes no device but the one that resolves. -/
theorem busRead_other_device {n : Width} {a : Word} {s : State} {k : Nat} (hk : resolve s.devices a ≠ some k) :
    (busRead n a s).2.devices[k]? = s.devices[k]? := by
  cases h : resolve s.devices a with
  | none => rw [busRead_of_unmapped h]
  | some i =>
    obtain ⟨d, hd, -⟩ := resolve_some h
    rw [busRead_of_resolved h hd]
    exact List.getElem?_set_ne fun hik => hk (h.trans (congrArg some hik))

theorem busWrite_other_device {n : Width} {a v : Word} {s : State} {k : Nat} (hk : resolve s.devices a ≠ some k) :
    (busWrite n a v s).devices[k]? = s.devices[k]? := by
  cases h : resolve s.devices a with
  | none => rw [busWrite_of_unmapped h]
  | some i =>
    obtain ⟨d, hd, -⟩ := resolve_some h
    rw [busWrite_of_resolved h hd]
    exact List.getElem?_set_ne fun hik => hk (h.trans (congrArg some hik))

theorem hookRead_other_device {n : Width} {a : Word} {s : State} {k : Nat} (hk : resolve s.devices a ≠ some k) :
    (hookRead n a s).2.devices[k]? = s.devices[k]? := by
  cases h : s.hooks.readHook n with
  | busCoordinator => rw [hookRead_of_busCoordinator h, busRead_other_device hk]
  | unregistered => rw [hookRead_of_unregistered h]

theorem hookWrite_other_device {n : Width} {a v : Word} {s : State} {k : Nat} (hk : resolve s.devices a ≠ some k) :
    (hookWrite n a v s).devices[k]? = s.devices[k]? := by
  cases h : s.hooks.writeHook n with
  | busCoordinator => rw [hookWrite_of_busCoordinator h, busWrite_other_device hk]
  | unregistered => rw [hookWrite_of_unregistered h]

/-- A router read that answers changes at most the device that resolves, and nothing where it reads RAM. -/
theorem memRead_devices {n : Width} {a v : Word} {s t : State} (h : memRead n a s = .ok (v, t)) :
    (∀ k, resolve s.devices a ≠ some k → t.devices[k]? = s.devices[k]?) ∧ (isRAMAddress s.map a = true → t = s) := by
  rcases memRead_cases n a s with ⟨f, -, hf⟩ | ⟨-, -, hf⟩ | ⟨-, hr, hf⟩
  · rw [hf] at h; cases h
  · rw [hf] at h; cases h
    exact ⟨fun _ _ => rfl, fun _ => rfl⟩
  · rw [hf] at h
    obtain rfl : (hookRead n a s).2 = t := congrArg Prod.snd (Except.ok.inj h)
    exact ⟨fun _ hk => hookRead_other_device hk, fun hr' => absurd hr' (Bool.eq_false_iff.mp hr)⟩

/-- Settles O58: a trap changes the record and running alone; else the frame is the router read's, with x[A] and the pc. -/
theorem loadFrame : Obligations.LoadFrame := by
  intro a b imm8 s t h
  cases hm : memRead .w32 (effectiveAddress b imm8 s) s with
  | error f =>
    rw [exec_load_of_error hm] at h; cases h
    exact ⟨fun _ _ => rfl, fun _ => rfl, fun _ _ => rfl, fun _ => rfl, rfl, rfl, rfl, rfl, rfl, .inr ⟨f, rfl⟩⟩
  | ok p =>
    obtain ⟨v, u⟩ := p
    rw [exec_load_of_ok hm] at h; cases h
    obtain ⟨hother, hram⟩ := memRead_devices hm
    obtain ⟨ds, rfl, -⟩ := memRead_ok_frame hm
    exact ⟨fun q hq => getReg_setReg_other { s with devices := ds } a q v hq, fun _ => rfl, hother,
      fun hr => (congrArg State.devices (hram hr) : ds = s.devices), rfl, rfl, rfl, rfl, rfl, .inl ⟨rfl, rfl⟩⟩

/-- Settles O59: a trap changes the record and running alone; a store to RAM changes the four bytes, and any other what the
hook changes. -/
theorem storeFrame : Obligations.StoreFrame := by
  intro a b imm8 s t ea hw hea h
  subst hea
  rcases memWrite_cases .w32 (effectiveAddress b imm8 s) (s.getReg a) s with ⟨f, -, hm⟩ | ⟨-, hr, hm⟩ | ⟨-, hr, hm⟩
  · rw [exec_store_of_error hm] at h; cases h
    exact ⟨fun _ => rfl, fun _ _ => rfl, fun _ => rfl, fun _ _ => rfl, fun _ => ⟨rfl, rfl⟩, ⟨[], (List.append_nil _).symm⟩,
      rfl, rfl, rfl, rfl, .inr ⟨f, rfl⟩⟩
  · rw [exec_store_of_ok hm] at h; cases h
    exact ⟨fun _ => rfl, fun _ hk => read_ramWrite_outside hw hk, fun hr' => absurd hr (Bool.eq_false_iff.mp hr'), fun _ _ => rfl,
      fun _ => ⟨rfl, rfl⟩, ⟨[], (List.append_nil _).symm⟩, rfl, rfl, rfl, rfl, .inl ⟨rfl, rfl⟩⟩
  · rw [exec_store_of_ok hm] at h; cases h
    have hother {k : Nat} (hk : resolve s.devices (effectiveAddress b imm8 s) ≠ some k) :=
      hookWrite_other_device (n := .w32) (v := s.getReg a) hk
    obtain ⟨ds, emitted, he, -⟩ := hookWrite_frame .w32 (effectiveAddress b imm8 s) (s.getReg a) s
    rw [he] at hother ⊢
    exact ⟨fun _ => rfl, fun _ _ => rfl, fun _ => rfl, fun _ hk => hother hk, fun hr' => absurd hr' (Bool.eq_false_iff.mp hr),
      ⟨emitted, rfl⟩, rfl, rfl, rfl, rfl, .inl ⟨rfl, rfl⟩⟩

/-! ### The serial data register -/

/-- A byte written at offset 0 of a serial device is its data register's and is emitted (R143, decision D28). -/
theorem write8_serial_data {d : Device} {id : Nat} {regs : SerialRegs} (hd : d.state = .serial id regs) (v : Byte) :
    d.write8 0 v =
      ({ d with state := .serial id { Config.serialAfterDataWrite id regs v with data := v } }, [v]) := by
  simp [Device.write8, DeviceState.write8, hd, serialWrite8, SerialRegister.offset]

/-- A word written at offset 0 of a serial device emits its low byte first. -/
theorem write_serial_data_emits {d : Device} {id : Nat} {regs : SerialRegs} (hd : d.state = .serial id regs) (v : Word) :
    ∃ rest, (d.write .w32 0 v).2 = v.extractLsb' 0 8 :: rest := by
  obtain ⟨-, -, -, hwrite⟩ := deviceAccessesComposeByteOperations d 0 v
  rw [hwrite, write8_serial_data hd]
  exact ⟨_, rfl⟩

/-- Settles O37: the store writes the device at offset 0, the first of its byte writes at the data register. -/
theorem serialDataWriteEmitsTheLowByteFirst : Obligations.SerialDataWriteEmitsTheLowByteFirst := by
  refine ⟨fun base size id regs v => ⟨_, rfl, write8_serial_data rfl v⟩, ?_⟩
  intro ra rb imm8 s k id d regs hc hr hp ha hea hk hd hserial
  obtain ⟨rest, hrest⟩ := write_serial_data_emits hserial (s.getReg ra)
  rw [← hea] at hr hp ha hk
  refine ⟨_, rest, storeWritesADevice ra rb imm8 s k d hc hr hp ha hk hd, ?_, rfl, rfl, rfl⟩
  rw [hea, BitVec.sub_self]
  exact congrArg (s.out ++ ·) hrest

end Sys2Proof.Machine
end
